-- ==== Sys2Proof/Word.lean ====
section
/-! DEFINITION. The widths of 00_scope.md R5 to R8: bytes, 16-bit words, and the operand field widths. -/
namespace Sys2Proof

/-- A byte register or memory cell (R5: V_WIDTH = 8). -/
abbrev Byte := BitVec 8

/-- A 16-bit quantity: `I`, `pc`, a return address, an instruction word (R5, R6). -/
abbrev Word := BitVec 16

/-- A register index, a key index or a sprite height: one nibble (R8, R71). -/
abbrev Nibble := BitVec 4

/-- A 12-bit address operand `nnn` (R71). -/
abbrev Addr12 := BitVec 12

end Sys2Proof
end

