-- ==== Sys2Proof/Config.lean ====
section
/-! DEFINITION. What is fixed for the machine (00_scope.md R5), its parameters (R6), and the one free value, the drawn
byte of RND. -/
namespace Sys2Proof.Config

/-- R5: MEM_SIZE. -/
def memSize : Nat := 4096

/-- R5: PROGRAM_START. -/
def programStart : Nat := 0x200

/-- R5: DISP_W. -/
def dispW : Nat := 64

/-- R5: DISP_H. -/
def dispH : Nat := 32

/-- R5: NUM_KEYS. -/
def numKeys : Nat := 16

/-- R5: FONT_BYTES. -/
def fontBytes : Nat := 80

/-- R5: GLYPH_BYTES. -/
def glyphBytes : Nat := 5

/-- R203 (b): the longest image Load accepts. -/
def maxImage : Nat := memSize - programStart

/-- R6: the parameters the source does not fix. The machine takes them as an argument (`Machine.execWith`,
`Machine.cycleWith`, `Machine.blockCycle`, `Machine.respond`); `Config.params` holds the spec's defaults. -/
structure Params where
  /-- FONT_BASE, the address of the first font byte. -/
  fontBase : Nat
  /-- FONT_DATA, the font's bytes. -/
  fontData : List Byte
  /-- STACK_DEPTH, the most return addresses the call stack can hold; `none` is `unbounded`. -/
  stackDepth : Option Nat
  deriving DecidableEq, Repr

/-- R6: FONT_BASE at the spec's default, 0x000 (decision D10; log entry 5). -/
def fontBase : Nat := 0x000

/-- R62: glyphs 0 to 7 of FONT_DATA (PRESUMED by the spec itself, G2; log entry 5). -/
def fontGlyphs0to7 : List Byte :=
  [0xF0, 0x90, 0x90, 0x90, 0xF0] ++ [0x20, 0x60, 0x20, 0x20, 0x70] ++
  [0xF0, 0x10, 0xF0, 0x80, 0xF0] ++ [0xF0, 0x10, 0xF0, 0x10, 0xF0] ++
  [0x90, 0x90, 0xF0, 0x10, 0x10] ++ [0xF0, 0x80, 0xF0, 0x10, 0xF0] ++
  [0xF0, 0x80, 0xF0, 0x90, 0xF0] ++ [0xF0, 0x10, 0x20, 0x40, 0x40]

/-- R62: glyphs 8 to F of FONT_DATA (PRESUMED by the spec itself, G2; log entry 5). -/
def fontGlyphs8toF : List Byte :=
  [0xF0, 0x90, 0xF0, 0x90, 0xF0] ++ [0xF0, 0x90, 0xF0, 0x10, 0xF0] ++
  [0xF0, 0x90, 0xF0, 0x90, 0x90] ++ [0xE0, 0x90, 0xE0, 0x90, 0xE0] ++
  [0xF0, 0x80, 0x80, 0x80, 0xF0] ++ [0xE0, 0x90, 0x90, 0x90, 0xE0] ++
  [0xF0, 0x80, 0xF0, 0x80, 0xF0] ++ [0xF0, 0x80, 0xF0, 0x80, 0x80]

/-- R62: FONT_DATA, 16 glyphs of 5 bytes. -/
def fontData : List Byte := fontGlyphs0to7 ++ fontGlyphs8toF

/-- R6, R26: STACK_DEPTH at the spec's default; `none` is `unbounded` (decision D9; log entry 6). -/
def stackDepth : Option Nat := none

/-- R6: the three parameters at the spec's defaults; `exec`, `step` and `State.reset`, whose types the host fixes, are
the machine with these. -/
def params : Params where
  fontBase := fontBase
  fontData := fontData
  stackDepth := stackDepth

/-- R112: the byte the environment answers at the `k`-th draw. It has no body: nothing constrains it (log entry 3). -/
opaque drawByte : Nat → Byte

end Sys2Proof.Config
end

