-- ==== Sys2Proof/Syntax.lean ====
section
/-! DEFINITION. The 34 instructions, the decoder's output type (30_encoding.md R74) and the host's events (60_exceptions.md R180). -/
namespace Sys2Proof

/-- One constructor per row of the opcode table (30_encoding.md R74, R76). The field types are exactly the operand widths
of R71, so every term is an instruction some word encodes (log entry 23). -/
inductive Instr where
  | cls                                     -- CLS
  | ret                                     -- RET
  | jp (nnn : Addr12)                       -- JP nnn
  | call (nnn : Addr12)                     -- CALL nnn
  | seImm (x : Nibble) (nn : Byte)          -- SE Vx, nn
  | sneImm (x : Nibble) (nn : Byte)         -- SNE Vx, nn
  | seReg (x y : Nibble)                    -- SE Vx, Vy
  | ldImm (x : Nibble) (nn : Byte)          -- LD Vx, nn
  | addImm (x : Nibble) (nn : Byte)         -- ADD Vx, nn
  | ldReg (x y : Nibble)                    -- LD Vx, Vy
  | or (x y : Nibble)                       -- OR Vx, Vy
  | and (x y : Nibble)                      -- AND Vx, Vy
  | xor (x y : Nibble)                      -- XOR Vx, Vy
  | addReg (x y : Nibble)                   -- ADD Vx, Vy
  | subReg (x y : Nibble)                   -- SUB Vx, Vy
  | shr (x : Nibble)                        -- SHR Vx
  | subn (x y : Nibble)                     -- SUBN Vx, Vy
  | shl (x : Nibble)                        -- SHL Vx
  | sneReg (x y : Nibble)                   -- SNE Vx, Vy
  | ldI (nnn : Addr12)                      -- LD I, nnn
  | jpV0 (nnn : Addr12)                     -- JP V0, nnn
  | rnd (x : Nibble) (nn : Byte)            -- RND Vx, nn
  | drw (x y n : Nibble)                    -- DRW Vx, Vy, n
  | skp (x : Nibble)                        -- SKP Vx
  | sknp (x : Nibble)                       -- SKNP Vx
  | ldVxDt (x : Nibble)                     -- LD Vx, DT
  | ldVxK (x : Nibble)                      -- LD Vx, K
  | ldDtVx (x : Nibble)                     -- LD DT, Vx
  | ldStVx (x : Nibble)                     -- LD ST, Vx
  | addI (x : Nibble)                       -- ADD I, Vx
  | ldF (x : Nibble)                        -- LD F, Vx
  | ldB (x : Nibble)                        -- LD B, Vx
  | storeRegs (x : Nibble)                  -- LD [I], Vx
  | loadRegs (x : Nibble)                   -- LD Vx, [I]
  deriving DecidableEq, Repr

/-- R74: the decoder's output, an instruction or the distinguished error variant, which carries no field. -/
inductive Operation where
  | instr (i : Instr)
  | invalid
  deriving DecidableEq, Repr

/-- R180: the host's events. A key index and an image are plain data here; WellFormed checks them (R190). -/
inductive Event where
  | reset
  | load (img : List Byte)
  | cycle
  | keyPress (k : Nat)
  | keyRelease (k : Nat)
  | displayRead
  | dirtyQuery
  | timerSample
  | faultReport
  deriving DecidableEq, Repr

end Sys2Proof
end

