-- ==== Sys2Proof/WellFormed.lean ====
section
/-! DEFINITION. The checks on terms that their types do not already make.
An `Instr` needs none: its field types are the operand widths of 30_encoding.md R71 ("decoder operands are always
in-range because they come from 4-bit nibbles", R73), so `Instr` has no ill-formed term (log entry 23). -/
namespace Sys2Proof

/-- R81: `encode` is defined on the 34 instruction variants; "`encode(Invalid)` is undefined". -/
def Operation.wellFormed : Operation → Bool
  | .instr _ => true
  | .invalid => false

/-- R182, R183, R190: a key index is 0 to 15. -/
def keyIndexOk (k : Nat) : Bool := k < Config.numKeys

/-- R203 (b): an image has at most 3584 bytes. -/
def imageOk (img : List Byte) : Bool := img.length ≤ Config.maxImage

/-- R190: what the host must keep to in one event, apart from when it issues it (for that, see `Machine.respond`). -/
def Event.wellFormed : Event → Bool
  | .keyPress k => keyIndexOk k
  | .keyRelease k => keyIndexOk k
  | .load img => imageOk img
  | .reset => true
  | .cycle => true
  | .displayRead => true
  | .dirtyQuery => true
  | .timerSample => true
  | .faultReport => true

/-- R6: FONT_BASE + 80 <= PROGRAM_START, and FONT_DATA has 80 bytes. -/
def fontOk (base : Nat) (data : List Byte) : Bool :=
  base + Config.fontBytes ≤ Config.programStart && data.length == Config.fontBytes

/-- R6: parameters a device can have. -/
def paramsOk (P : Config.Params) : Bool := fontOk P.fontBase P.fontData

end Sys2Proof
end

