-- ==== Sys2Proof/Decode.lean ====
section
/-! DEFINITION. The decoder (30_encoding.md R70 to R80), the encoder (R81) and the opcode map as rows (R76). -/
namespace Sys2Proof

/-! ## Fields (R8, R71) -/

/-- R8: nibble 0, the family selector. -/
def fieldOp (w : Word) : Nibble := w.extractLsb' 12 4
/-- R71: `x`, nibble 1. -/
def fieldX (w : Word) : Nibble := w.extractLsb' 8 4
/-- R71: `y`, nibble 2. -/
def fieldY (w : Word) : Nibble := w.extractLsb' 4 4
/-- R71: `n`, nibble 3. -/
def fieldN (w : Word) : Nibble := w.extractLsb' 0 4
/-- R71: `nn`, the low byte. -/
def fieldNN (w : Word) : Byte := w.extractLsb' 0 8
/-- R71: `nnn`, the low 12 bits. -/
def fieldNNN (w : Word) : Addr12 := w.extractLsb' 0 12

/-- R55: a word from two bytes, the byte at the lower address the more significant. -/
def wordOfBytes (hi lo : Byte) : Word := hi ++ lo
/-- R55, R56: the byte of a word that stands at the lower address. -/
def highByte (w : Word) : Byte := w.extractLsb' 8 8
/-- R55, R56: the byte of a word that stands at the higher address. -/
def lowByte (w : Word) : Byte := w.extractLsb' 0 8

/-! ## Decoding (R75) -/

/-- R75, family 0: the whole word is compared. -/
def decodeFamily0 (w : Word) : Operation :=
  if w = 0x00E0#16 then .instr .cls
  else if w = 0x00EE#16 then .instr .ret
  else .invalid

/-- R75, family 5: nibble 3 must be 0. -/
def decodeFamily5 (w : Word) : Operation :=
  if fieldN w = 0x0#4 then .instr (.seReg (fieldX w) (fieldY w)) else .invalid

/-- R75, family 8: nibble 3 is a sub-opcode; the shifts drop nibble 2 (R79). -/
def decodeFamily8 (w : Word) : Operation :=
  let x := fieldX w
  let y := fieldY w
  let n := fieldN w
  if n = 0x0#4 then .instr (.ldReg x y)
  else if n = 0x1#4 then .instr (.or x y)
  else if n = 0x2#4 then .instr (.and x y)
  else if n = 0x3#4 then .instr (.xor x y)
  else if n = 0x4#4 then .instr (.addReg x y)
  else if n = 0x5#4 then .instr (.subReg x y)
  else if n = 0x6#4 then .instr (.shr x)
  else if n = 0x7#4 then .instr (.subn x y)
  else if n = 0xE#4 then .instr (.shl x)
  else .invalid

/-- R75, family 9: nibble 3 must be 0. -/
def decodeFamily9 (w : Word) : Operation :=
  if fieldN w = 0x0#4 then .instr (.sneReg (fieldX w) (fieldY w)) else .invalid

/-- R75, family E: the low byte is compared. -/
def decodeFamilyE (w : Word) : Operation :=
  if fieldNN w = 0x9E#8 then .instr (.skp (fieldX w))
  else if fieldNN w = 0xA1#8 then .instr (.sknp (fieldX w))
  else .invalid

/-- R75, family F: the low byte is compared. -/
def decodeFamilyF (w : Word) : Operation :=
  let x := fieldX w
  let nn := fieldNN w
  if nn = 0x07#8 then .instr (.ldVxDt x)
  else if nn = 0x0A#8 then .instr (.ldVxK x)
  else if nn = 0x15#8 then .instr (.ldDtVx x)
  else if nn = 0x18#8 then .instr (.ldStVx x)
  else if nn = 0x1E#8 then .instr (.addI x)
  else if nn = 0x29#8 then .instr (.ldF x)
  else if nn = 0x33#8 then .instr (.ldB x)
  else if nn = 0x55#8 then .instr (.storeRegs x)
  else if nn = 0x65#8 then .instr (.loadRegs x)
  else .invalid

/-- R75, R80: the decode function, total on all 65536 words. -/
def decodeWord (w : Word) : Operation :=
  let op := fieldOp w
  if op = 0x0#4 then decodeFamily0 w
  else if op = 0x1#4 then .instr (.jp (fieldNNN w))
  else if op = 0x2#4 then .instr (.call (fieldNNN w))
  else if op = 0x3#4 then .instr (.seImm (fieldX w) (fieldNN w))
  else if op = 0x4#4 then .instr (.sneImm (fieldX w) (fieldNN w))
  else if op = 0x5#4 then decodeFamily5 w
  else if op = 0x6#4 then .instr (.ldImm (fieldX w) (fieldNN w))
  else if op = 0x7#4 then .instr (.addImm (fieldX w) (fieldNN w))
  else if op = 0x8#4 then decodeFamily8 w
  else if op = 0x9#4 then decodeFamily9 w
  else if op = 0xA#4 then .instr (.ldI (fieldNNN w))
  else if op = 0xB#4 then .instr (.jpV0 (fieldNNN w))
  else if op = 0xC#4 then .instr (.rnd (fieldX w) (fieldNN w))
  else if op = 0xD#4 then .instr (.drw (fieldX w) (fieldY w) (fieldN w))
  else if op = 0xE#4 then decodeFamilyE w
  else decodeFamilyF w

/-- Why a byte sequence gives no instruction. -/
inductive DecodeReject where
  /-- Fewer than the two bytes every instruction has (R70). Safe: the engine never decodes such a sequence, since the
  fetch of two bytes has failed before (R55). -/
  | truncated
  /-- The word matches no row of R76 (R77); executing it is a DecodeFailure (R159), which is as the spec says. -/
  | invalidWord (w : Word)
  deriving DecidableEq, Repr

/-- What decoding a byte sequence gives. -/
inductive DecodeResult where
  | ok (i : Instr) (rest : List Byte)
  | reject (r : DecodeReject)
  deriving DecidableEq, Repr

/-- R55, R70: decoding from bytes, the first byte the more significant. Total. -/
def decodeBytes : List Byte → DecodeResult
  | hi :: lo :: rest =>
    match decodeWord (wordOfBytes hi lo) with
    | .instr i => .ok i rest
    | .invalid => .reject (.invalidWord (wordOfBytes hi lo))
  | [_] => .reject .truncated
  | [] => .reject .truncated

/-! ## Encoding (R72, R81) -/

/-- R72: format ADDR. -/
def formAddr (op : Nibble) (nnn : Addr12) : Word := op ++ nnn
/-- R72: format XNN. -/
def formXNN (op x : Nibble) (nn : Byte) : Word := op ++ x ++ nn
/-- R72: formats XY and XYN, four nibbles. -/
def formXYN (op x y n : Nibble) : Word := op ++ x ++ y ++ n

/-- R81: the canonical word of an instruction; nibble 2 of a shift is 0. -/
def encode : Instr → Word
  | .cls => 0x00E0#16
  | .ret => 0x00EE#16
  | .jp nnn => formAddr 0x1#4 nnn
  | .call nnn => formAddr 0x2#4 nnn
  | .seImm x nn => formXNN 0x3#4 x nn
  | .sneImm x nn => formXNN 0x4#4 x nn
  | .seReg x y => formXYN 0x5#4 x y 0x0#4
  | .ldImm x nn => formXNN 0x6#4 x nn
  | .addImm x nn => formXNN 0x7#4 x nn
  | .ldReg x y => formXYN 0x8#4 x y 0x0#4
  | .or x y => formXYN 0x8#4 x y 0x1#4
  | .and x y => formXYN 0x8#4 x y 0x2#4
  | .xor x y => formXYN 0x8#4 x y 0x3#4
  | .addReg x y => formXYN 0x8#4 x y 0x4#4
  | .subReg x y => formXYN 0x8#4 x y 0x5#4
  | .shr x => formXYN 0x8#4 x 0x0#4 0x6#4
  | .subn x y => formXYN 0x8#4 x y 0x7#4
  | .shl x => formXYN 0x8#4 x 0x0#4 0xE#4
  | .sneReg x y => formXYN 0x9#4 x y 0x0#4
  | .ldI nnn => formAddr 0xA#4 nnn
  | .jpV0 nnn => formAddr 0xB#4 nnn
  | .rnd x nn => formXNN 0xC#4 x nn
  | .drw x y n => formXYN 0xD#4 x y n
  | .skp x => formXNN 0xE#4 x 0x9E#8
  | .sknp x => formXNN 0xE#4 x 0xA1#8
  | .ldVxDt x => formXNN 0xF#4 x 0x07#8
  | .ldVxK x => formXNN 0xF#4 x 0x0A#8
  | .ldDtVx x => formXNN 0xF#4 x 0x15#8
  | .ldStVx x => formXNN 0xF#4 x 0x18#8
  | .addI x => formXNN 0xF#4 x 0x1E#8
  | .ldF x => formXNN 0xF#4 x 0x29#8
  | .ldB x => formXNN 0xF#4 x 0x33#8
  | .storeRegs x => formXNN 0xF#4 x 0x55#8
  | .loadRegs x => formXNN 0xF#4 x 0x65#8

/-- R55, R84: an instruction as it stands in an image, high byte first. -/
def encodeBytes (i : Instr) : List Byte := [highByte (encode i), lowByte (encode i)]

/-! ## The opcode map as rows (R76) -/

/-- One row of R76: a word selects it when `w &&& mask = pattern`. -/
structure OpcodeRow where
  pattern : Word
  mask    : Word
  deriving DecidableEq, Repr

/-- R76: whether a word selects a row. -/
def OpcodeRow.selects (r : OpcodeRow) (w : Word) : Bool := w &&& r.mask == r.pattern

/-- R76: the `match` and `mask` columns, by instruction. -/
def Instr.row : Instr → OpcodeRow
  | .cls => ⟨0x00E0#16, 0xFFFF#16⟩
  | .ret => ⟨0x00EE#16, 0xFFFF#16⟩
  | .jp _ => ⟨0x1000#16, 0xF000#16⟩
  | .call _ => ⟨0x2000#16, 0xF000#16⟩
  | .seImm _ _ => ⟨0x3000#16, 0xF000#16⟩
  | .sneImm _ _ => ⟨0x4000#16, 0xF000#16⟩
  | .seReg _ _ => ⟨0x5000#16, 0xF00F#16⟩
  | .ldImm _ _ => ⟨0x6000#16, 0xF000#16⟩
  | .addImm _ _ => ⟨0x7000#16, 0xF000#16⟩
  | .ldReg _ _ => ⟨0x8000#16, 0xF00F#16⟩
  | .or _ _ => ⟨0x8001#16, 0xF00F#16⟩
  | .and _ _ => ⟨0x8002#16, 0xF00F#16⟩
  | .xor _ _ => ⟨0x8003#16, 0xF00F#16⟩
  | .addReg _ _ => ⟨0x8004#16, 0xF00F#16⟩
  | .subReg _ _ => ⟨0x8005#16, 0xF00F#16⟩
  | .shr _ => ⟨0x8006#16, 0xF00F#16⟩
  | .subn _ _ => ⟨0x8007#16, 0xF00F#16⟩
  | .shl _ => ⟨0x800E#16, 0xF00F#16⟩
  | .sneReg _ _ => ⟨0x9000#16, 0xF00F#16⟩
  | .ldI _ => ⟨0xA000#16, 0xF000#16⟩
  | .jpV0 _ => ⟨0xB000#16, 0xF000#16⟩
  | .rnd _ _ => ⟨0xC000#16, 0xF000#16⟩
  | .drw _ _ _ => ⟨0xD000#16, 0xF000#16⟩
  | .skp _ => ⟨0xE09E#16, 0xF0FF#16⟩
  | .sknp _ => ⟨0xE0A1#16, 0xF0FF#16⟩
  | .ldVxDt _ => ⟨0xF007#16, 0xF0FF#16⟩
  | .ldVxK _ => ⟨0xF00A#16, 0xF0FF#16⟩
  | .ldDtVx _ => ⟨0xF015#16, 0xF0FF#16⟩
  | .ldStVx _ => ⟨0xF018#16, 0xF0FF#16⟩
  | .addI _ => ⟨0xF01E#16, 0xF0FF#16⟩
  | .ldF _ => ⟨0xF029#16, 0xF0FF#16⟩
  | .ldB _ => ⟨0xF033#16, 0xF0FF#16⟩
  | .storeRegs _ => ⟨0xF055#16, 0xF0FF#16⟩
  | .loadRegs _ => ⟨0xF065#16, 0xF0FF#16⟩

/-- R76: the table's rows, families 0 to 7. -/
def opcodeRows0to7 : List OpcodeRow :=
  [⟨0x00E0#16, 0xFFFF#16⟩, ⟨0x00EE#16, 0xFFFF#16⟩, ⟨0x1000#16, 0xF000#16⟩, ⟨0x2000#16, 0xF000#16⟩,
   ⟨0x3000#16, 0xF000#16⟩,
   ⟨0x4000#16, 0xF000#16⟩, ⟨0x5000#16, 0xF00F#16⟩, ⟨0x6000#16, 0xF000#16⟩, ⟨0x7000#16, 0xF000#16⟩]
/-- R76: the table's rows, families 8 to D. -/
def opcodeRows8toD : List OpcodeRow :=
  [⟨0x8000#16, 0xF00F#16⟩, ⟨0x8001#16, 0xF00F#16⟩, ⟨0x8002#16, 0xF00F#16⟩, ⟨0x8003#16, 0xF00F#16⟩, ⟨0x8004#16, 0xF00F#16⟩,
   ⟨0x8005#16, 0xF00F#16⟩, ⟨0x8006#16, 0xF00F#16⟩, ⟨0x8007#16, 0xF00F#16⟩, ⟨0x800E#16, 0xF00F#16⟩, ⟨0x9000#16, 0xF00F#16⟩,
   ⟨0xA000#16, 0xF000#16⟩, ⟨0xB000#16, 0xF000#16⟩, ⟨0xC000#16, 0xF000#16⟩, ⟨0xD000#16, 0xF000#16⟩]
/-- R76: the table's rows, families E and F. -/
def opcodeRowsEtoF : List OpcodeRow :=
  [⟨0xE09E#16, 0xF0FF#16⟩, ⟨0xE0A1#16, 0xF0FF#16⟩, ⟨0xF007#16, 0xF0FF#16⟩, ⟨0xF00A#16, 0xF0FF#16⟩, ⟨0xF015#16, 0xF0FF#16⟩,
   ⟨0xF018#16, 0xF0FF#16⟩, ⟨0xF01E#16, 0xF0FF#16⟩, ⟨0xF029#16, 0xF0FF#16⟩, ⟨0xF033#16, 0xF0FF#16⟩, ⟨0xF055#16, 0xF0FF#16⟩,
   ⟨0xF065#16, 0xF0FF#16⟩]
/-- R76: all 34 rows in the table's order. -/
def opcodeRows : List OpcodeRow := opcodeRows0to7 ++ opcodeRows8toD ++ opcodeRowsEtoF

/-- R77: a word is legal when some row selects it. -/
def legalWord (w : Word) : Bool := opcodeRows.any fun r => r.selects w

/-! ## The host's reading of the table -/

/-- An opcode-table word of `nbits` bits as the two bytes in memory, high byte first (R55). -/
def tableBytes (nbits w : Nat) : List Byte :=
  let word : Word := BitVec.ofNat 16 (w % 2 ^ nbits)
  [highByte word, lowByte word]

/-- The instruction the decoder reads from an instruction whose bits are `w`. -/
def decodeTableWord (nbits w : Nat) : Option Instr :=
  match decodeBytes (tableBytes nbits w) with
  | .ok i _ => some i
  | .reject _ => none

end Sys2Proof
end

