-- ==== Sys2Proof/Machine/State.lean ====
section
/-! DEFINITION. The state of the block (10_state.md R20 to R41), its reset values (R40), and the reasons of an outcome. -/
namespace Sys2Proof.Machine

/-- The four fault kinds of 60_exceptions.md R171. In this hardware a fault does not leave the machine without a next
state: R174 says what state the machine enters, so a raise is a NEXT state whose `halt` latch holds the kind, and no
`step` and no `exec` answers `.fault` (log entry 1). Each kind is terminal until Reset (R175), which makes it safe. -/
inductive Fault where
  /-- Code 1. Raised by executing `Invalid` (45_control_flow.md R159). Safe: the spec's own fault. -/
  | decodeFailure
  /-- Code 2. Raised by the fetch, DRW, LD B, LD [I], Vx and LD Vx, [I] on a range past the end of memory
  (20_memory.md R52, R53). Safe: the spec's own fault. -/
  | boundsViolation
  /-- Code 3. Raised by RET on an empty call stack (45_control_flow.md R150). Safe: the spec's own fault. -/
  | stackUnderflow
  /-- Code 4. Raised by CALL on a full call stack, only with a finite STACK_DEPTH (45_control_flow.md R152). Safe: the
  spec's own fault. -/
  | stackOverflow
  deriving DecidableEq, Repr

/-- R171: the code numbers. -/
def Fault.code : Fault → Nat
  | .decodeFailure => 1
  | .boundsViolation => 2
  | .stackUnderflow => 3
  | .stackOverflow => 4

/-- Why the model gives no next state. The last four are raised by `respond` for a host event that breaks a duty of
60_exceptions.md R190 ("the model gives such a run no meaning (it refuses the event)"); no `step` answers them. -/
inductive Refusal where
  /-- An instruction without a meaning, by its mnemonic. Raised by no arm: every instruction has its meaning. Safe. -/
  | notModelled (mnemonic : String)
  /-- An event other than Reset before the first Reset (70_reset_and_hazards.md R200). Raised by `respond`. Safe: the
  spec refuses it. -/
  | notReset
  /-- A Load after a Load or after a Cycle (70_reset_and_hazards.md R203 (a)). Raised by `respond`. Safe: the spec
  refuses it. -/
  | loadOutsideWindow
  /-- A Load of more than 3584 bytes (70_reset_and_hazards.md R203 (b)). Raised by `respond`. Safe: the spec refuses
  it. -/
  | imageTooLong
  /-- A key index above 15 (60_exceptions.md R190, 93_implementation_defined.md U15). Raised by `respond`. Safe: the
  spec refuses it. -/
  | keyIndexOutOfRange
  deriving DecidableEq, Repr

/-- R33: what the fault latch records. -/
structure FaultRecord where
  kind : Fault
  /-- The address the faulting cycle fetched from. -/
  addr : Word
  /-- The word fetched, or 0 when the fetch itself faulted. -/
  word : Word
  deriving DecidableEq, Repr

/-- R28: memory as (address, byte) pairs in canonical form (`Memory.wf`): addresses strictly rising and below 4096, no
entry equal to what an unlisted address reads as (log entry 4). -/
abbrev Memory := List Host.Cell

/-- R29: 32 rows of 64 pixels, row 0 at the top, column 0 at the left. -/
abbrev Display := Vector (Vector Bool 64) 32

/-- R20: the complete state of the block, exactly the eleven elements of the rule. -/
structure Elements where
  /-- R21: the byte registers V0 to VF. -/
  v     : Vector Byte 16
  /-- R23: the address register `I`. -/
  i     : Word
  /-- R24: the program counter. -/
  pc    : Word
  /-- R26: the call stack, newest entry first (log entry 8). -/
  stack : List Word
  /-- R28: `MEM`. -/
  mem   : Memory
  /-- R29: `DISP`. -/
  disp  : Display
  /-- R30: the dirty flag. -/
  dirty : Bool
  /-- R31: the delay timer `DT`. -/
  dt    : Byte
  /-- R31: the sound timer `ST`. -/
  st    : Byte
  /-- R32: the mask of pressed keys, bit k for key k. -/
  keys  : BitVec 16
  /-- R33: the fault latch, `none` while the machine runs. -/
  halt  : Option FaultRecord
  deriving DecidableEq, Repr

/-- The eleven elements, and beside them the count by which `exec` and `step`, whose types the host fixes, read the free
value of RND (log entry 3). The count is no state of the block (R36 (d)): `blockCycle` and `respond` work on `Elements` and
take the drawn byte as an input. -/
structure State extends Elements where
  /-- The model's own: how many bytes RND has drawn. -/
  draws : Nat
  deriving DecidableEq, Repr

/-- The elements with a count beside them. -/
def Elements.withDraws (e : Elements) (k : Nat) : State where
  toElements := e
  draws := k

/-- R40: every pixel 0. -/
def Display.blank : Display := Vector.replicate 32 (Vector.replicate 64 false)

/-- R40, R201: the state after Reset at the default parameters. Memory lists nothing: an unlisted address reads as its
contents after that Reset. -/
def State.reset : State where
  v     := Vector.replicate 16 0
  i     := 0
  pc    := BitVec.ofNat 16 Config.programStart
  stack := []
  mem   := []
  disp  := Display.blank
  dirty := false
  dt    := 0
  st    := 0
  keys  := 0
  halt  := none
  draws := 0

/-! ## The host's side of the interface -/

/-- R203 (a): what has happened since the last Reset, as far as the legality of Load depends on it. -/
inductive Phase where
  /-- After Reset, before any Load and any Cycle. -/
  | fresh
  /-- After Load, before any Cycle. -/
  | loaded
  /-- After the first Cycle. -/
  | running
  deriving DecidableEq, Repr

/-- The block as the host sees it (R180, R200): before the first Reset its state is not defined. -/
inductive Block where
  | unreset
  | live (phase : Phase) (e : Elements)
  deriving DecidableEq, Repr

/-- The result column of R180. -/
inductive Response where
  /-- Reset, Load, Cycle, Key press, Key release: no result. -/
  | done
  /-- Display read (R184): width, height and the pixels in row-major order. -/
  | pixels (width height : Nat) (grid : List Bool)
  /-- Dirty query (R185). -/
  | dirtyWas (d : Bool)
  /-- Timer sample (R186). -/
  | timers (dt st : Byte)
  /-- Fault report (R187). -/
  | report (halt : Option FaultRecord)
  deriving DecidableEq, Repr

end Sys2Proof.Machine
end

