-- ==== Sys2Proof/Machine/Ops.lean ====
section
/-! DEFINITION. The named operations over registers, memory, stack, timers and the fault latch (00_scope.md R9). -/
namespace Sys2Proof.Machine

/-! ## Registers (10_state.md R21 to R24) -/

/-- R9: `V[x]`. -/
def Elements.reg (e : Elements) (x : Nibble) : Byte := e.v[x.toNat]'x.isLt

/-- R9: `V[x] <- b`. -/
def State.setReg (s : State) (x : Nibble) (b : Byte) : State := { s with v := s.v.set x.toNat b x.isLt }

/-- R22: the index of VF. -/
def vf : Nibble := 0xF

/-- R9: `I <- w`. -/
def State.setI (s : State) (w : Word) : State := { s with i := w }

/-- R9: `pc <- w`. -/
def State.setPc (s : State) (w : Word) : State := { s with pc := w }

/-- The call stack as a whole. -/
def State.setStack (s : State) (st : List Word) : State := { s with stack := st }

/-- The memory as a whole. -/
def State.setMem (s : State) (m : Memory) : State := { s with mem := m }

/-- The display and its dirty flag. -/
def State.setDisplay (s : State) (d : Display) (dirty : Bool) : State := { s with disp := d, dirty := dirty }

/-- R185: the dirty flag alone, for the Dirty query. -/
def State.setDirty (s : State) (b : Bool) : State := { s with dirty := b }

/-- R9: `DT <- b`. -/
def State.setDt (s : State) (b : Byte) : State := { s with dt := b }

/-- R9: `ST <- b`. -/
def State.setSt (s : State) (b : Byte) : State := { s with st := b }

/-- The key mask; only host events use it (R32). -/
def State.setKeys (s : State) (k : BitVec 16) : State := { s with keys := k }

/-- The fault latch (R33). -/
def State.setHalt (s : State) (h : Option FaultRecord) : State := { s with halt := h }

/-- The model's own count of draws (log entry 3). -/
def State.setDraws (s : State) (k : Nat) : State := { s with draws := k }

/-! ## Memory (20_memory.md R50 to R53) -/

/-- R51, R40: what an address that memory does not list reads as: its contents after Reset at the default parameters, a
font byte or 0. It only fixes the representation: with other parameters Reset lists what differs (`resetMemory`). -/
def Memory.background (a : Nat) : Byte :=
  if Config.fontBase ≤ a ∧ a < Config.fontBase + Config.fontBytes then Config.fontData.getD (a - Config.fontBase) 0 else 0

/-- The entry listed for an address. -/
def Memory.lookup : Memory → Nat → Option Byte
  | [], _ => none
  | (k, b) :: m, a => if a = k then some b else Memory.lookup m a

/-- R59: one cell. The operations below read only addresses under 4096 through it (log entry 25). -/
def Memory.read (m : Memory) (a : Nat) : Byte := (m.lookup a).getD (Memory.background a)

/-- Lists a byte at its place, over an entry for the same address. -/
def Memory.insert : Memory → Nat → Byte → Memory
  | [], a, b => [(a, b)]
  | (k, c) :: m, a, b =>
    if a < k then (a, b) :: (k, c) :: m
    else if a = k then (a, b) :: m
    else (k, c) :: Memory.insert m a b

/-- Unlists an address. -/
def Memory.erase : Memory → Nat → Memory
  | [], _ => []
  | (k, c) :: m, a => if a = k then m else (k, c) :: Memory.erase m a

/-- R53: one cell written. Writing what an unlisted address reads as unlists it, which keeps the form canonical. -/
def Memory.write (m : Memory) (a : Nat) (b : Byte) : Memory :=
  if b = Memory.background a then m.erase a else m.insert a b

/-- R53: bytes written to ascending addresses. -/
def Memory.writeList : Memory → Nat → List Byte → Memory
  | m, _, [] => m
  | m, a, b :: bs => Memory.writeList (m.write a b) (a + 1) bs

/-- R52: `n` bytes from ascending addresses. -/
def Memory.readList (m : Memory) : Nat → Nat → List Byte
  | _, 0 => []
  | a, n + 1 => m.read a :: m.readList (a + 1) n

/-- The canonical form: addresses strictly rising and below 4096 (R63), no entry equal to the reset contents. -/
def Memory.wf (m : Memory) : Bool :=
  decide (m.Pairwise fun c d => c.1 < d.1) &&
  m.all fun c => decide (c.1 < Config.memSize) && c.2 != Memory.background c.1

/-- R52, R53, R63: whether a range lies in memory; the sum does not wrap. -/
def inBounds (addr n : Nat) : Bool := addr + n ≤ Config.memSize

/-- R52: `MemRead(addr, n)`; `none` is the BoundsViolation. -/
def memRead (s : State) (addr n : Nat) : Option (List Byte) :=
  if inBounds addr n then some (s.mem.readList addr n) else none

/-- R53: `MemWrite(addr, n, bytes)` with `n` the list's length; `none` is the BoundsViolation, nothing written. -/
def memWrite (s : State) (addr : Nat) (bytes : List Byte) : Option State :=
  if inBounds addr bytes.length then some (s.setMem (s.mem.writeList addr bytes)) else none

/-! ## Fetch, advance, tick (40_engine_cycle.md R90) -/

/-- R55: the big-endian word at an address; `none` is the BoundsViolation. -/
def fetchWord (s : State) (a : Word) : Option Word :=
  match memRead s a.toNat 2 with
  | some [b0, b1] => some (wordOfBytes b0 b1)
  | _ => none

/-- R90 step 3: `pc <- a + 2`, before dispatch. -/
def advance (s : State) : State := s.setPc (s.pc + 2)

/-- R34: one timer step, floored at zero. -/
def tickByte (b : Byte) : Byte := if b = 0 then 0 else b - 1

/-- R34: `tick()`. -/
def tick (s : State) : State := (s.setDt (tickByte s.dt)).setSt (tickByte s.st)

/-! ## Taking a fault (60_exceptions.md R174) -/

/-- R24: the address `a` the current cycle fetched from, once `pc` is `a + 2`. -/
def State.fetchAddr (s : State) : Word := s.pc - 2

/-- R174 (3), D22: the word the current cycle fetched. Every raise precedes its instruction's first write (R174 (2)), so
memory still holds it at `a` (log entry 2). -/
def State.fetchedWord (s : State) : Word :=
  wordOfBytes (s.mem.read s.fetchAddr.toNat) (s.mem.read (s.fetchAddr.toNat + 1))

/-- R174: the ONE place a fault is taken. What the cycle did before stands; `halt` records the fault; nothing else
changes: no handler, no saved state. -/
def latchFault (s : State) (kind : Fault) (addr word : Word) : State := s.setHalt (some ⟨kind, addr, word⟩)

/-- R174: `raise` in step 4, where `pc` is `a + 2`. -/
def raise (s : State) (kind : Fault) : State := latchFault s kind s.fetchAddr s.fetchedWord

/-- R174: `raise` in step 2, where `pc` is still `a` and no word was fetched. -/
def raiseAtFetch (s : State) : State := latchFault s .boundsViolation s.pc 0

/-! ## The call stack (10_state.md R27) -/

/-- R27: whether a push finds the stack full. -/
def stackFull (capacity : Option Nat) (s : State) : Bool :=
  match capacity with
  | some d => s.stack.length == d
  | none => false

/-- R27: `push(v)` for a given STACK_DEPTH; `none` is the StackOverflow. -/
def push (capacity : Option Nat) (s : State) (w : Word) : Option State :=
  if stackFull capacity s then none else some (s.setStack (w :: s.stack))

/-- R27: `pop()`; `none` is the StackUnderflow. -/
def pop (s : State) : Option (Word × State) :=
  match s.stack with
  | [] => none
  | w :: ws => some (w, s.setStack ws)

/-! ## Random bytes (41_register_ops.md R112) -/

/-- R9, R112: `draw_byte()`, a free value, anew at each draw. -/
def drawByte (s : State) : Byte × State := (Config.drawByte s.draws, s.setDraws (s.draws + 1))

/-! ## The display (43_display_ops.md R130 to R132) -/

/-- R29: one pixel; a position outside the display has none and reads as unset. -/
def Display.pixel (d : Display) (row col : Nat) : Bool :=
  if h : row < 32 ∧ col < 64 then (d[row]'h.1)[col]'h.2 else false

/-- R132: one pixel toggled; a position outside the display is clipped. -/
def Display.toggle (d : Display) (row col : Nat) : Display :=
  if h : row < 32 ∧ col < 64 then d.set row ((d[row]'h.1).set col (!(d[row]'h.1)[col]'h.2) h.2) h.1 else d

/-- R132: what a DRW accumulates while it visits the sprite's bits. -/
structure Canvas where
  disp : Display
  collision : Bool
  dirty : Bool
  deriving DecidableEq, Repr

/-- R132: the body of the loop for a set sprite bit at `(row, col)`. -/
def Canvas.plot (c : Canvas) (row col : Nat) : Canvas :=
  if col < Config.dispW ∧ row < Config.dispH then
    { disp := c.disp.toggle row col, collision := c.collision || c.disp.pixel row col, dirty := true }
  else c

/-- R132: the inner loop, `c` from 0 to 7; sprite bit `7 - c` is column `px + c`. -/
def Canvas.drawRow (c : Canvas) (b : Byte) (row px : Nat) : Canvas :=
  (List.range 8).foldl (fun acc k => if b.getLsbD (7 - k) then acc.plot row (px + k) else acc) c

/-- R132: the outer loop over the sprite's bytes, row `py` downward. -/
def Canvas.drawRows : Canvas → List Byte → Nat → Nat → Canvas
  | c, [], _, _ => c
  | c, b :: bs, py, px => Canvas.drawRows (c.drawRow b py px) bs (py + 1) px

/-- R184: the grid in row-major order. -/
def Display.grid (d : Display) : List Bool := d.toList.flatMap fun row => row.toList

/-! ## Keys (10_state.md R32) -/

/-- R32: `is_pressed(k)`. -/
def isPressed (s : State) (k : Nibble) : Bool := s.keys.getLsbD k.toNat

/-- R32: `any_pressed()`, the lowest-indexed pressed key. -/
def anyPressed (s : State) : Option Nat :=
  if s.keys = 0 then none else (List.range 16).find? fun k => s.keys.getLsbD k

/-! ## A program placed from outside (log entries 12, 24) -/

/-- Bytes written to memory from `a` on, without an instruction or a host event. -/
def placeBytes (s : State) (a : Nat) (bytes : List Byte) : State := s.setMem (s.mem.writeList a bytes)

/-- What the fetch needs to take place at all: a running machine and a `pc` whose two bytes lie in memory. -/
def fetchable (s : State) : State :=
  let s := s.setHalt none
  if inBounds s.pc.toNat 2 then s else s.setPc (BitVec.ofNat 16 Config.programStart)

/-- An instruction word stored where the next fetch reads it. -/
def placeAtPc (s : State) (bytes : List Byte) : State :=
  let t := fetchable s
  placeBytes t t.pc.toNat bytes

end Sys2Proof.Machine
end

