-- ==== Sys2Proof/Machine/Operands.lean ====
section
/-! DEFINITION. Operand forms: immediates and addresses (30_encoding.md R73), the one addressing mode (42_memory_ops.md
R120), register runs (R124, R125), glyph addresses (R126), key and digit indices (D14). -/
namespace Sys2Proof.Machine

/-- R73: a 12-bit address in a 16-bit register, zero-extended. -/
def zext12 (nnn : Addr12) : Word := nnn.setWidth 16

/-- R122, R158: a byte as a 16-bit quantity, zero-extended. -/
def zext8 (b : Byte) : Word := b.setWidth 16

/-- R120: the effective address of every data access, the value of `I` as a natural number. -/
def effAddr (s : State) : Nat := s.i.toNat

/-- D14 (R126, R143, R144): the low 4 bits of a register's value. -/
def lowNibble (b : Byte) : Nibble := b.extractLsb' 0 4

/-- R126: the address of glyph `d` of a font at `base`. -/
def glyphAddr (base : Nat) (d : Nibble) : Word := BitVec.ofNat 16 (base + Config.glyphBytes * d.toNat)

/-- R124: `[V[0], ..., V[x]]`. -/
def regsUpTo (s : State) (x : Nibble) : List Byte := s.v.toList.take (x.toNat + 1)

/-- R125: `V[k] <- bytes[k]` from register `k` on, as many as there are bytes. -/
def setRegs : State → Nat → List Byte → State
  | s, _, [] => s
  | s, k, b :: bs => setRegs (s.setReg (BitVec.ofNat 4 k) b) (k + 1) bs

/-- R123: the hundreds, tens and ones digits of a byte, hundreds first. -/
def bcdDigits (b : Byte) : List Byte :=
  [BitVec.ofNat 8 (b.toNat / 100), BitVec.ofNat 8 (b.toNat / 10 % 10), BitVec.ofNat 8 (b.toNat % 10)]

/-- R157: a skip passes exactly one instruction. -/
def skipIf (p : Bool) (s : State) : State := if p then s.setPc (s.pc + 2) else s

end Sys2Proof.Machine
end

