-- ==== Sys2Proof/Machine/ControlFlow.lean ====
section
/-! DEFINITION. Control-flow instructions and the illegal operation (45_control_flow.md R150 to R159). On entry `pc` is
the instruction's address plus 2. -/
namespace Sys2Proof.Machine

/-- R150: RET; an empty stack is a StackUnderflow. -/
def execRet (s : State) : Host.Outcome State Fault Refusal :=
  match pop s with
  | some (w, t) => .next (t.setPc w)
  | none => .next (raise s .stackUnderflow)

/-- R151: JP nnn. -/
def execJp (nnn : Addr12) (s : State) : Host.Outcome State Fault Refusal :=
  .next (s.setPc (zext12 nnn))

/-- R152: CALL nnn under a given STACK_DEPTH; a full stack is a StackOverflow. -/
def callWithin (capacity : Option Nat) (nnn : Addr12) (s : State) : State :=
  match push capacity s s.pc with
  | some t => t.setPc (zext12 nnn)
  | none => raise s .stackOverflow

/-- R152: CALL nnn. -/
def execCall (nnn : Addr12) (s : State) : Host.Outcome State Fault Refusal :=
  .next (callWithin Config.stackDepth nnn s)

/-- R158: JP V0, nnn; neither wrapped nor truncated to 12 bits. -/
def execJpV0 (nnn : Addr12) (s : State) : Host.Outcome State Fault Refusal :=
  .next (s.setPc (zext12 nnn + zext8 (s.reg 0)))

/-- R153: SE Vx, nn. -/
def execSeImm (x : Nibble) (nn : Byte) (s : State) : Host.Outcome State Fault Refusal :=
  .next (skipIf (s.reg x == nn) s)

/-- R154: SNE Vx, nn. -/
def execSneImm (x : Nibble) (nn : Byte) (s : State) : Host.Outcome State Fault Refusal :=
  .next (skipIf (s.reg x != nn) s)

/-- R155: SE Vx, Vy. -/
def execSeReg (x y : Nibble) (s : State) : Host.Outcome State Fault Refusal :=
  .next (skipIf (s.reg x == s.reg y) s)

/-- R156: SNE Vx, Vy. -/
def execSneReg (x y : Nibble) (s : State) : Host.Outcome State Fault Refusal :=
  .next (skipIf (s.reg x != s.reg y) s)

/-- R159: executing `Invalid`, always a DecodeFailure. -/
def execInvalid (s : State) : Host.Outcome State Fault Refusal :=
  .next (raise s .decodeFailure)

end Sys2Proof.Machine
end

