-- ==== Sys2Proof/Machine/Flags.lean ====
section
/-! DEFINITION. The values instructions write to VF as a side effect (10_state.md R22), and the order of the writes. -/
namespace Sys2Proof.Machine

/-- A truth value as the byte 0 or 1. -/
def flagByte (p : Bool) : Byte := if p then 1 else 0

/-- R106, R113 (b): the exact sum passes 255. -/
def carryOut (a b : Byte) : Bool := decide (255 < a.toNat + b.toNat)

/-- R107, R113 (c): no borrow, the complement of `a < b`. -/
def noBorrow (a b : Byte) : Bool := decide (b.toNat ≤ a.toNat)

/-- R22: a result written to `V[x]`, then the flag to VF, which stands when `x` is 15 (R100). -/
def resultThenFlag (s : State) (x : Nibble) (result flag : Byte) : State := (s.setReg x result).setReg vf flag

/-- R108, R110, D5: the flag written first, then `V[x]` shifted as it stands after that. -/
def flagThenShift (s : State) (x : Nibble) (flag : Byte) (shift : Byte → Byte) : State :=
  let t := s.setReg vf flag
  t.setReg x (shift (t.reg x))

/-- R108: old bit 0. -/
def lowBit (b : Byte) : Byte := flagByte (b.getLsbD 0)

/-- R110: old bit 7 as 0 or 1. -/
def highBit (b : Byte) : Byte := flagByte (b.getLsbD 7)

end Sys2Proof.Machine
end

