-- ==== Sys2Proof/Machine/DisplayOps.lean ====
section
/-! DEFINITION. Display instructions (43_display_ops.md R130 to R133). -/
namespace Sys2Proof.Machine

/-- R131: CLS; dirty is set unconditionally. -/
def execCls (s : State) : Host.Outcome State Fault Refusal :=
  .next (s.setDisplay Display.blank true)

/-- R132: the sprite drawn with its corner at row `py`, column `px`, unreduced (D16). -/
def drawSprite (s : State) (sprite : List Byte) (py px : Nat) : Canvas :=
  Canvas.drawRows { disp := s.disp, collision := false, dirty := s.dirty } sprite py px

/-- R132: DRW Vx, Vy, n; VF is written last. -/
def execDrw (x y n : Nibble) (s : State) : Host.Outcome State Fault Refusal :=
  match memRead s (effAddr s) n.toNat with
  | some sprite =>
    let c := drawSprite s sprite (s.reg y).toNat (s.reg x).toNat
    .next ((s.setDisplay c.disp c.dirty).setReg vf (flagByte c.collision))
  | none => .next (raise s .boundsViolation)

end Sys2Proof.Machine
end

