-- ==== Sys2Proof/Machine/MemoryOps.lean ====
section
/-! DEFINITION. Address-register and memory instructions (42_memory_ops.md R120 to R126). -/
namespace Sys2Proof.Machine

/-- R121: LD I, nnn. -/
def execLdI (nnn : Addr12) (s : State) : Host.Outcome State Fault Refusal :=
  .next (s.setI (zext12 nnn))

/-- R122: ADD I, Vx, modulo 65536; VF is not written. -/
def execAddI (x : Nibble) (s : State) : Host.Outcome State Fault Refusal :=
  .next (s.setI (s.i + zext8 (s.reg x)))

/-- R126: LD F, Vx under a given FONT_BASE. -/
def ldFFrom (base : Nat) (x : Nibble) (s : State) : State := s.setI (glyphAddr base (lowNibble (s.reg x)))

/-- R126: LD F, Vx. -/
def execLdF (x : Nibble) (s : State) : Host.Outcome State Fault Refusal :=
  .next (ldFFrom Config.fontBase x s)

/-- R53: bytes stored at `I`, or the BoundsViolation taken (R174) with nothing written. -/
def storeAtI (bytes : List Byte) (s : State) : State :=
  (memWrite s (effAddr s) bytes).getD (raise s .boundsViolation)

/-- R123: LD B, Vx. -/
def execLdB (x : Nibble) (s : State) : Host.Outcome State Fault Refusal :=
  .next (storeAtI (bcdDigits (s.reg x)) s)

/-- R124: LD [I], Vx. -/
def execStoreRegs (x : Nibble) (s : State) : Host.Outcome State Fault Refusal :=
  .next (storeAtI (regsUpTo s x) s)

/-- R125: LD Vx, [I]; the whole range is checked before any register is written. -/
def execLoadRegs (x : Nibble) (s : State) : Host.Outcome State Fault Refusal :=
  match memRead s (effAddr s) (x.toNat + 1) with
  | some bytes => .next (setRegs s 0 bytes)
  | none => .next (raise s .boundsViolation)

end Sys2Proof.Machine
end

