-- ==== Sys2Proof/Machine/RegisterOps.lean ====
section
/-! DEFINITION. Register-file instructions (41_register_ops.md R100 to R113). None can fault (R100). -/
namespace Sys2Proof.Machine

/-- R101: LD Vx, nn. -/
def execLdImm (x : Nibble) (nn : Byte) (s : State) : Host.Outcome State Fault Refusal :=
  .next (s.setReg x nn)

/-- R102: ADD Vx, nn; VF is not written as a flag. -/
def execAddImm (x : Nibble) (nn : Byte) (s : State) : Host.Outcome State Fault Refusal :=
  .next (s.setReg x (s.reg x + nn))

/-- R111: LD Vx, Vy. -/
def execLdReg (x y : Nibble) (s : State) : Host.Outcome State Fault Refusal :=
  .next (s.setReg x (s.reg y))

/-- R103: OR Vx, Vy; VF is then reset to 0. -/
def execOr (x y : Nibble) (s : State) : Host.Outcome State Fault Refusal :=
  .next (resultThenFlag s x (s.reg x ||| s.reg y) 0)

/-- R104: AND Vx, Vy; VF is then reset to 0. -/
def execAnd (x y : Nibble) (s : State) : Host.Outcome State Fault Refusal :=
  .next (resultThenFlag s x (s.reg x &&& s.reg y) 0)

/-- R105: XOR Vx, Vy; VF is then reset to 0. -/
def execXor (x y : Nibble) (s : State) : Host.Outcome State Fault Refusal :=
  .next (resultThenFlag s x (s.reg x ^^^ s.reg y) 0)

/-- R106: ADD Vx, Vy; VF is then the carry. -/
def execAddReg (x y : Nibble) (s : State) : Host.Outcome State Fault Refusal :=
  .next (resultThenFlag s x (s.reg x + s.reg y) (flagByte (carryOut (s.reg x) (s.reg y))))

/-- R107: SUB Vx, Vy, minuend Vx; VF is then 1 for no borrow. -/
def execSubReg (x y : Nibble) (s : State) : Host.Outcome State Fault Refusal :=
  .next (resultThenFlag s x (s.reg x - s.reg y) (flagByte (noBorrow (s.reg x) (s.reg y))))

/-- R109: SUBN Vx, Vy, minuend Vy; VF is then 1 for no borrow. -/
def execSubn (x y : Nibble) (s : State) : Host.Outcome State Fault Refusal :=
  .next (resultThenFlag s x (s.reg y - s.reg x) (flagByte (noBorrow (s.reg y) (s.reg x))))

/-- R108: SHR Vx. -/
def execShr (x : Nibble) (s : State) : Host.Outcome State Fault Refusal :=
  .next (flagThenShift s x (lowBit (s.reg x)) fun b => b >>> 1)

/-- R110: SHL Vx. -/
def execShl (x : Nibble) (s : State) : Host.Outcome State Fault Refusal :=
  .next (flagThenShift s x (highBit (s.reg x)) fun b => b <<< 1)

/-- R112: RND Vx, nn with the environment's answer as an input. -/
def rndFrom (answer : Byte) (x : Nibble) (nn : Byte) (s : State) : State := s.setReg x (answer &&& nn)

/-- R112: RND Vx, nn; the drawn byte is a free value. -/
def execRnd (x : Nibble) (nn : Byte) (s : State) : Host.Outcome State Fault Refusal :=
  .next (rndFrom (drawByte s).1 x nn (drawByte s).2)

end Sys2Proof.Machine
end

