-- ==== Sys2Proof/Machine/TimerInputOps.lean ====
section
/-! DEFINITION. Timer and key instructions (44_timer_input_ops.md R140 to R146). None can fault. -/
namespace Sys2Proof.Machine

/-- R140: LD Vx, DT, after this cycle's tick (R91). -/
def execLdVxDt (x : Nibble) (s : State) : Host.Outcome State Fault Refusal :=
  .next (s.setReg x s.dt)

/-- R141: LD DT, Vx, over this cycle's tick. -/
def execLdDtVx (x : Nibble) (s : State) : Host.Outcome State Fault Refusal :=
  .next (s.setDt (s.reg x))

/-- R142: LD ST, Vx, over this cycle's tick. -/
def execLdStVx (x : Nibble) (s : State) : Host.Outcome State Fault Refusal :=
  .next (s.setSt (s.reg x))

/-- R143: SKP Vx. -/
def execSkp (x : Nibble) (s : State) : Host.Outcome State Fault Refusal :=
  .next (skipIf (isPressed s (lowNibble (s.reg x))) s)

/-- R144: SKNP Vx. -/
def execSknp (x : Nibble) (s : State) : Host.Outcome State Fault Refusal :=
  .next (skipIf (!isPressed s (lowNibble (s.reg x))) s)

/-- R145: LD Vx, K; with no key down `pc` goes back to this instruction. -/
def execLdVxK (x : Nibble) (s : State) : Host.Outcome State Fault Refusal :=
  match anyPressed s with
  | none => .next (s.setPc (s.pc - 2))
  | some k => .next (s.setReg x (BitVec.ofNat 8 k))

end Sys2Proof.Machine
end

