-- ==== Sys2Proof/Machine/Cycle.lean ====
section
/-! DEFINITION. The Cycle event (40_engine_cycle.md R90 to R95), for every parameter (00_scope.md R6) and every answer of the
environment (41_register_ops.md R112). -/
namespace Sys2Proof.Machine

/-- R92, for the parameters `P` and the byte `answer` of `draw_byte()`: three instructions depend on them, the others are
as in `exec`. -/
def execWith (P : Config.Params) (answer : Byte) (i : Instr) (s : State) : Host.Outcome State Fault Refusal :=
  match i with
  | .call nnn => .next (callWithin P.stackDepth nnn s)
  | .ldF x => .next (ldFFrom P.fontBase x s)
  | .rnd x nn => .next (rndFrom answer x nn s)
  | .cls | .ret | .jp _ | .jpV0 _ | .seImm _ _ | .sneImm _ _ | .seReg _ _ | .sneReg _ _ | .skp _ | .sknp _ | .ldVxK _
  | .ldImm _ _ | .addImm _ _ | .ldReg _ _ | .or _ _ | .and _ _ | .xor _ _ | .addReg _ _ | .subReg _ _ | .shr _
  | .subn _ _ | .shl _ | .ldI _ | .drw _ _ _ | .ldVxDt _ | .ldDtVx _ | .ldStVx _ | .addI _ | .ldB _ | .storeRegs _
  | .loadRegs _ => exec i s

/-- R92: dispatch on the decoder's output. -/
def execOperation (run : Instr → State → Host.Outcome State Fault Refusal) (o : Operation) (s : State) :
    Host.Outcome State Fault Refusal :=
  match o with
  | .instr i => run i s
  | .invalid => execInvalid s

/-- R90 steps 2 to 4, after the tick. -/
def fetchAndExecute (run : Instr → State → Host.Outcome State Fault Refusal) (s : State) :
    Host.Outcome State Fault Refusal :=
  match fetchWord s s.pc with
  | none => .next (raiseAtFetch s)
  | some w => execOperation run (decodeWord w) (advance s)

/-- R90: one Cycle event with the dispatch `run`; a halted machine does nothing (R93). -/
def cycle (run : Instr → State → Host.Outcome State Fault Refusal) (s : State) : Host.Outcome State Fault Refusal :=
  match s.halt with
  | some _ => .next s
  | none => fetchAndExecute run (tick s)

/-- R90, R95: one Cycle event for the parameters `P` and the answer of `draw_byte()`. It neither reads nor writes the count
of draws. -/
def cycleWith (P : Config.Params) (answer : Byte) (s : State) : Host.Outcome State Fault Refusal :=
  cycle (execWith P answer) s

/-- R20, R36 (d), R95: one Cycle event on the block's own state, the eleven elements; the drawn byte is an input. -/
def blockCycle (P : Config.Params) (answer : Byte) (e : Elements) : Host.Outcome Elements Fault Refusal :=
  match cycleWith P answer (e.withDraws 0) with
  | .next t => .next t.toElements
  | .fault r => .fault r
  | .refused r => .refused r

end Sys2Proof.Machine
end

