-- ==== Sys2Proof/Machine/Step.lean ====
section
/-! DEFINITION. The step of the machine: one Cycle event. -/
namespace Sys2Proof.Machine

/-- R90: one step is one Cycle event (log entry 10), at the default parameters (log entries 5, 6) and with the free value
of log entry 3 as the drawn byte. -/
def step (s : State) : Host.Outcome State Fault Refusal := cycle exec s

/-- `s` with an instruction of the opcode table stored where the next step fetches it (log entries 12, 24). -/
def State.withFetchWord (s : State) (nbits w : Nat) : State := placeAtPc s (tableBytes nbits w)

end Sys2Proof.Machine
end

