-- ==== Sys2Proof/Machine/HostEvents.lean ====
section
/-! DEFINITION. The host's events (60_exceptions.md R180 to R190, 70_reset_and_hazards.md R200 to R203) on the block's eleven
elements, for every parameter and with the environment's answers as an input. -/
namespace Sys2Proof.Machine

/-- R201: memory after Reset, zero but for the font of `P`. -/
def resetMemory (P : Config.Params) : Memory :=
  Memory.writeList (Memory.writeList [] Config.fontBase (List.replicate Config.fontBytes 0)) P.fontBase P.fontData

/-- R40, R201: the elements after Reset; no earlier state matters. -/
def resetElements (P : Config.Params) : Elements := { State.reset.toElements with mem := resetMemory P }

/-- R202: Load of an image: the font again, then the image at 0x200. -/
def loadEvent (P : Config.Params) (img : List Byte) (e : Elements) : Elements :=
  { e with mem := (e.mem.writeList P.fontBase P.fontData).writeList Config.programStart img }

/-- R182: Key press. -/
def keyPressEvent (k : Nat) (e : Elements) : Elements := { e with keys := e.keys ||| BitVec.twoPow 16 k }

/-- R183: Key release. -/
def keyReleaseEvent (k : Nat) (e : Elements) : Elements := { e with keys := e.keys &&& ~~~BitVec.twoPow 16 k }

/-- R185: Dirty query, "returns and clears". -/
def dirtyQueryEvent (e : Elements) : Response × Elements := (.dirtyWas e.dirty, { e with dirty := false })

/-- R184: Display read. -/
def displayReadResponse (e : Elements) : Response := .pixels Config.dispW Config.dispH e.disp.grid

/-- R186: Timer sample. -/
def timerSampleResponse (e : Elements) : Response := .timers e.dt e.st

/-- R187: Fault report. -/
def faultReportResponse (e : Elements) : Response := .report e.halt

/-- R203: Load is legal once, after Reset and before the first Cycle, with at most 3584 bytes. -/
def respondLoad (P : Config.Params) (img : List Byte) (p : Phase) (e : Elements) :
    Host.Outcome (Block × Response) Fault Refusal :=
  match p with
  | .fresh => if imageOk img then .next (.live .loaded (loadEvent P img e), .done) else .refused .imageTooLong
  | .loaded => .refused .loadOutsideWindow
  | .running => .refused .loadOutsideWindow

/-- R90, R180: Cycle; Load is no longer legal after it (R203 (a)). -/
def respondCycle (P : Config.Params) (answer : Byte) (e : Elements) : Host.Outcome (Block × Response) Fault Refusal :=
  match blockCycle P answer e with
  | .next f => .next (.live .running f, .done)
  | .fault r => .fault r
  | .refused r => .refused r

/-- R190: a key event with an index above 15 is refused. -/
def respondKey (f : Nat → Elements → Elements) (k : Nat) (p : Phase) (e : Elements) :
    Host.Outcome (Block × Response) Fault Refusal :=
  if keyIndexOk k then .next (.live p (f k e), .done) else .refused .keyIndexOutOfRange

/-- R180: one event on a block that has been reset. -/
def respondLive (P : Config.Params) (answer : Byte) (ev : Event) (p : Phase) (e : Elements) :
    Host.Outcome (Block × Response) Fault Refusal :=
  match ev with
  | .reset => .next (.live .fresh (resetElements P), .done)
  | .load img => respondLoad P img p e
  | .cycle => respondCycle P answer e
  | .keyPress k => respondKey keyPressEvent k p e
  | .keyRelease k => respondKey keyReleaseEvent k p e
  | .displayRead => .next (.live p e, displayReadResponse e)
  | .dirtyQuery => .next (.live p (dirtyQueryEvent e).2, (dirtyQueryEvent e).1)
  | .timerSample => .next (.live p e, timerSampleResponse e)
  | .faultReport => .next (.live p e, faultReportResponse e)

/-- R200: before the first Reset only Reset is accepted. -/
def respondUnreset (P : Config.Params) (ev : Event) : Host.Outcome (Block × Response) Fault Refusal :=
  match ev with
  | .reset => .next (.live .fresh (resetElements P), .done)
  | .load _ => .refused .notReset
  | .cycle => .refused .notReset
  | .keyPress _ => .refused .notReset
  | .keyRelease _ => .refused .notReset
  | .displayRead => .refused .notReset
  | .dirtyQuery => .refused .notReset
  | .timerSample => .refused .notReset
  | .faultReport => .refused .notReset

/-- R180: the block's answer to one host event; `answer` is the environment's answer to `draw_byte()`, asked for only by a
Cycle that executes RND (R190). -/
def respond (P : Config.Params) (answer : Byte) (ev : Event) (b : Block) :
    Host.Outcome (Block × Response) Fault Refusal :=
  match b with
  | .unreset => respondUnreset P ev
  | .live p e => respondLive P answer ev p e

/-- R10, R180: a run, events one at a time in a total order, each with the environment's answer; the responses in that
order. -/
def respondAll (P : Config.Params) : List (Event × Byte) → Block → Host.Outcome (Block × List Response) Fault Refusal
  | [], b => .next (b, [])
  | (ev, answer) :: evs, b =>
    match respond P answer ev b with
    | .next (b', r) =>
      match respondAll P evs b' with
      | .next (b'', rs) => .next (b'', r :: rs)
      | .fault q => .fault q
      | .refused q => .refused q
    | .fault q => .fault q
    | .refused q => .refused q

end Sys2Proof.Machine
end

