-- ==== Sys2Proof/Safety.lean ====
section
/-! DEFINITION. The terms claims are stated in: what a step leaves unchanged, the rules' own tables (10_state.md R25,
60_exceptions.md R172), the sprite of a DRW, the invariant, and safe runs (R175). Nothing here is called by the machine. -/
namespace Sys2Proof.Machine

/-! ## Frames -/

/-- The components of State: the eleven elements of R20, and the model's own count of draws beside them. -/
inductive Component where
  | v | i | pc | stack | mem | disp | dirty | dt | st | keys | halt | draws
  deriving DecidableEq, Repr

/-- What it means that a component is as before: every register, every byte and every pixel of it. -/
def Unchanged (c : Component) (s t : State) : Prop :=
  match c with
  | .v => ∀ k, t.reg k = s.reg k
  | .i => t.i = s.i
  | .pc => t.pc = s.pc
  | .stack => t.stack = s.stack
  | .mem => ∀ a, t.mem.read a = s.mem.read a
  | .disp => ∀ row col, t.disp.pixel row col = s.disp.pixel row col
  | .dirty => t.dirty = s.dirty
  | .dt => t.dt = s.dt
  | .st => t.st = s.st
  | .keys => t.keys = s.keys
  | .halt => t.halt = s.halt
  | .draws => t.draws = s.draws

/-- R92: "any state element its rule does not mention is unchanged". -/
def OnlyChanges (cs : List Component) (s t : State) : Prop := ∀ c, c ∉ cs → Unchanged c s t

/-- The same for the block's own state, which has no count of draws. -/
def OnlyElementsChange (cs : List Component) (e f : Elements) : Prop := OnlyChanges cs (e.withDraws 0) (f.withDraws 0)

/-- Only the listed registers change, and nothing but registers. -/
def OnlyRegsChange (xs : List Nibble) (s t : State) : Prop :=
  OnlyChanges [.v] s t ∧ ∀ k, k ∉ xs → t.reg k = s.reg k

/-- Every byte of memory outside the `n` bytes from `a` on is as before. -/
def SameMemoryOutside (a n : Nat) (s t : State) : Prop :=
  ∀ b, b < a ∨ a + n ≤ b → t.mem.read b = s.mem.read b

/-- R55: the word whose two bytes stand at `a` and `a + 1`. -/
def wordAt (s : State) (a : Word) : Word := s.mem.read a.toNat ++ s.mem.read (a.toNat + 1)

/-- R174, for a raise by an instruction entered with `pc = a + 2`: `halt` records the kind, `a` and the word at `a`, and
nothing else changes. -/
def Raises (kind : Fault) (s t : State) : Prop :=
  t.halt = some ⟨kind, s.pc - 2, wordAt s (s.pc - 2)⟩ ∧ OnlyChanges [.halt] s t

/-- R90: a running machine whose next cycle fetches and decodes the instruction `i`. -/
def Fetches (s : State) (i : Instr) : Prop :=
  s.halt = none ∧ s.pc.toNat + 2 ≤ 4096 ∧ decodeWord (wordAt s s.pc) = .instr i

/-- R34: both timers are one lower than before, floored at zero. -/
def Ticked (s t : State) : Prop := t.dt.toNat = s.dt.toNat - 1 ∧ t.st.toNat = s.st.toNat - 1

/-! ## The rules' own tables -/

/-- R25: how each instruction leaves `pc`, entered with `pc = a + 2`. -/
def pcAfter (i : Instr) (s : State) : Word :=
  match i with
  | .jp nnn => BitVec.ofNat 16 nnn.toNat
  | .jpV0 nnn => BitVec.ofNat 16 (nnn.toNat + (s.reg 0).toNat)
  | .call nnn => if Config.stackDepth = some s.stack.length then s.pc else BitVec.ofNat 16 nnn.toNat
  | .ret => s.stack.headD s.pc
  | .seImm x nn => if s.reg x = nn then s.pc + 2 else s.pc
  | .sneImm x nn => if s.reg x = nn then s.pc else s.pc + 2
  | .seReg x y => if s.reg x = s.reg y then s.pc + 2 else s.pc
  | .sneReg x y => if s.reg x = s.reg y then s.pc else s.pc + 2
  | .skp x => if s.keys.getLsbD ((s.reg x).toNat % 16) then s.pc + 2 else s.pc
  | .sknp x => if s.keys.getLsbD ((s.reg x).toNat % 16) then s.pc else s.pc + 2
  | .ldVxK _ => if s.keys = 0 then s.pc - 2 else s.pc
  | .cls | .ldImm _ _ | .addImm _ _ | .ldReg _ _ | .or _ _ | .and _ _ | .xor _ _ | .addReg _ _ | .subReg _ _
  | .shr _ | .subn _ _ | .shl _ | .ldI _ | .rnd _ _ | .drw _ _ _ | .ldVxDt _ | .ldDtVx _ | .ldStVx _ | .addI _
  | .ldF _ | .ldB _ | .storeRegs _ | .loadRegs _ => s.pc

/-- R172, step 4: which fault an instruction raises under the parameters `P`. -/
def instrFault (P : Config.Params) (i : Instr) (s : State) : Option Fault :=
  match i with
  | .ret => if s.stack = [] then some .stackUnderflow else none
  | .call _ => if P.stackDepth = some s.stack.length then some .stackOverflow else none
  | .drw _ _ n => if 4096 < s.i.toNat + n.toNat then some .boundsViolation else none
  | .ldB _ => if 4096 < s.i.toNat + 3 then some .boundsViolation else none
  | .storeRegs x => if 4096 < s.i.toNat + x.toNat + 1 then some .boundsViolation else none
  | .loadRegs x => if 4096 < s.i.toNat + x.toNat + 1 then some .boundsViolation else none
  | .cls | .jp _ | .jpV0 _ | .seImm _ _ | .sneImm _ _ | .seReg _ _ | .sneReg _ _ | .skp _ | .sknp _ | .ldVxK _
  | .ldImm _ _ | .addImm _ _ | .ldReg _ _ | .or _ _ | .and _ _ | .xor _ _ | .addReg _ _ | .subReg _ _
  | .shr _ | .subn _ _ | .shl _ | .ldI _ | .rnd _ _ | .ldVxDt _ | .ldDtVx _ | .ldStVx _ | .addI _ | .ldF _ => none

/-- R172: which fault a cycle raises that starts in the running state `s` under the parameters `P`. -/
def cycleFault (P : Config.Params) (s : State) : Option Fault :=
  if 4095 ≤ s.pc.toNat then some .boundsViolation
  else match decodeWord (wordAt s s.pc) with
    | .invalid => some .decodeFailure
    | .instr i => instrFault P i s

/-- R22: the instructions that write VF as a side effect. -/
def writesFlag (i : Instr) : Bool :=
  match i with
  | .or _ _ | .and _ _ | .xor _ _ | .addReg _ _ | .subReg _ _ | .subn _ _ | .shr _ | .shl _ | .drw _ _ _ => true
  | .cls | .ret | .jp _ | .call _ | .jpV0 _ | .seImm _ _ | .sneImm _ _ | .seReg _ _ | .sneReg _ _ | .skp _ | .sknp _
  | .ldVxK _ | .ldImm _ _ | .addImm _ _ | .ldReg _ _ | .ldI _ | .rnd _ _ | .ldVxDt _ | .ldDtVx _ | .ldStVx _
  | .addI _ | .ldF _ | .ldB _ | .storeRegs _ | .loadRegs _ => false

/-- R22, R92: the registers an instruction names as its destination. -/
def destRegs (i : Instr) (k : Nibble) : Bool :=
  match i with
  | .ldImm x _ | .addImm x _ | .ldReg x _ | .or x _ | .and x _ | .xor x _ | .addReg x _ | .subReg x _ | .subn x _
  | .shr x | .shl x | .rnd x _ | .ldVxDt x | .ldVxK x => k == x
  | .loadRegs x => decide (k.toNat ≤ x.toNat)
  | .cls | .ret | .jp _ | .call _ | .jpV0 _ | .seImm _ _ | .sneImm _ _ | .seReg _ _ | .sneReg _ _ | .skp _ | .sknp _
  | .ldI _ | .drw _ _ _ | .ldDtVx _ | .ldStVx _ | .addI _ | .ldF _ | .ldB _ | .storeRegs _ => false

/-- The components, other than `pc`, the registers and `halt`, that an instruction may change: R23 for `I`, R26 for the
stack, R54 for memory, R29 and R30 for the display, R31 for the timers; `KEYS` never (R32). -/
def mayChange (i : Instr) : List Component :=
  match i with
  | .ldI _ | .addI _ | .ldF _ => [.i]
  | .call _ | .ret => [.stack]
  | .ldB _ | .storeRegs _ => [.mem]
  | .cls | .drw _ _ _ => [.disp, .dirty]
  | .ldDtVx _ => [.dt]
  | .ldStVx _ => [.st]
  | .rnd _ _ => [.draws]
  | .jp _ | .jpV0 _ | .seImm _ _ | .sneImm _ _ | .seReg _ _ | .sneReg _ _ | .skp _ | .sknp _ | .ldVxK _
  | .ldImm _ _ | .addImm _ _ | .ldReg _ _ | .or _ _ | .and _ _ | .xor _ _ | .addReg _ _ | .subReg _ _
  | .shr _ | .subn _ _ | .shl _ | .ldVxDt _ | .loadRegs _ => []

/-- R130, R132: the sprite of `DRW Vx, Vy, n` has a set bit at `(row, col)`: bit `7 - c` of byte `r` for the position `r`
rows below and `c` columns right of the corner. -/
def spriteSetAt (s : State) (x y n : Nibble) (row col : Nat) : Bool :=
  decide ((s.reg y).toNat ≤ row) && decide (row < (s.reg y).toNat + n.toNat) &&
  decide ((s.reg x).toNat ≤ col) && decide (col < (s.reg x).toNat + 8) &&
  (s.mem.read (s.i.toNat + (row - (s.reg y).toNat))).getLsbD (7 - (col - (s.reg x).toNat))

/-! ## The invariant -/

/-- What every reachable state has: memory in canonical form (log entry 4); `pc` and the return addresses within the
bounds R25 derives; a stack within STACK_DEPTH (R26); and a fault record that agrees with `pc` (R174). -/
structure Inv (P : Config.Params) (e : Elements) : Prop where
  mem_wf : e.mem.wf = true
  pc_le : e.pc.toNat ≤ 0x10FE
  stack_le : ∀ r ∈ e.stack, r.toNat ≤ 4096
  depth_le : ∀ d, P.stackDepth = some d → e.stack.length ≤ d
  halt_ok : ∀ f, e.halt = some f →
    (f.kind = .boundsViolation ∧ f.word = 0 ∧ f.addr = e.pc ∧ 4095 ≤ e.pc.toNat) ∨
    (f.addr.toNat ≤ 4094 ∧ e.pc = f.addr + 2)

/-! ## Runs -/

/-- R175: a state of a run without fault. -/
def Running (s : State) : Prop := s.halt = none

/-- R175: `n` cycles from `s` end in `t` without a fault. -/
def SafeCycles (n : Nat) (s t : State) : Prop := core.run n s = .next t ∧ Running t

/-- R10, R180, R200: the blocks a host that keeps to its duties can bring about, whatever the environment answers. -/
inductive Reachable (P : Config.Params) : Block → Prop where
  | start : Reachable P .unreset
  | event (answer : Byte) (ev : Event) (b b' : Block) (r : Response) :
      Reachable P b → respond P answer ev b = .next (b', r) → Reachable P b'

/-- R30, R35: the states differ at most in `dirty` and `ST`, which no program can observe. -/
structure SameButDirtyAndSt (s t : State) : Prop where
  v : t.v = s.v
  i : t.i = s.i
  pc : t.pc = s.pc
  stack : t.stack = s.stack
  mem : t.mem = s.mem
  disp : t.disp = s.disp
  dt : t.dt = s.dt
  keys : t.keys = s.keys
  halt : t.halt = s.halt
  draws : t.draws = s.draws

end Sys2Proof.Machine
end

