-- ==== Sys2Proof/Certificates/Slice0/Obligations.lean ====
section
/-! DEFINITION. The statements for the provers. An instruction is entered with `pc` already advanced (40_engine_cycle.md
R92). Each result statement also says which words decode to the instruction, that it completes, and its frame. -/
open Sys2Proof Sys2Proof.Machine

/-! ## Register-file instructions (41_register_ops.md) -/

/-- R101. -/
def Obligations.LdImmSetsRegister : Prop :=
  ∀ (x : Nibble) (nn : Byte) (s : State),
    decodeWord (0x6#4 ++ x ++ nn) = .instr (.ldImm x nn) ∧
    ∃ t, exec (.ldImm x nn) s = .next t ∧ t.reg x = nn ∧ OnlyRegsChange [x] s t

/-- R102 (decision D18). -/
def Obligations.AddImmWrapsWithoutFlag : Prop :=
  ∀ (x : Nibble) (nn : Byte) (s : State),
    decodeWord (0x7#4 ++ x ++ nn) = .instr (.addImm x nn) ∧
    ∃ t, exec (.addImm x nn) s = .next t ∧
      (t.reg x).toNat = ((s.reg x).toNat + nn.toNat) % 256 ∧ OnlyRegsChange [x] s t

/-- R111. -/
def Obligations.LdRegCopiesRegister : Prop :=
  ∀ (x y : Nibble) (s : State),
    decodeWord (0x8#4 ++ x ++ y ++ 0x0#4) = .instr (.ldReg x y) ∧
    ∃ t, exec (.ldReg x y) s = .next t ∧ t.reg x = s.reg y ∧ OnlyRegsChange [x] s t

/-- R103, R104, R105. -/
def Obligations.LogicResultsAndFlagZero : Prop :=
  ∀ (x y : Nibble) (s : State),
    (decodeWord (0x8#4 ++ x ++ y ++ 0x1#4) = .instr (.or x y) ∧
      ∃ t, exec (.or x y) s = .next t ∧ t.reg vf = 0 ∧
        (x ≠ vf → ∀ k < 8, (t.reg x).getLsbD k = ((s.reg x).getLsbD k || (s.reg y).getLsbD k)) ∧
        OnlyRegsChange [x, vf] s t) ∧
    (decodeWord (0x8#4 ++ x ++ y ++ 0x2#4) = .instr (.and x y) ∧
      ∃ t, exec (.and x y) s = .next t ∧ t.reg vf = 0 ∧
        (x ≠ vf → ∀ k < 8, (t.reg x).getLsbD k = ((s.reg x).getLsbD k && (s.reg y).getLsbD k)) ∧
        OnlyRegsChange [x, vf] s t) ∧
    (decodeWord (0x8#4 ++ x ++ y ++ 0x3#4) = .instr (.xor x y) ∧
      ∃ t, exec (.xor x y) s = .next t ∧ t.reg vf = 0 ∧
        (x ≠ vf → ∀ k < 8, (t.reg x).getLsbD k = ((s.reg x).getLsbD k ^^ (s.reg y).getLsbD k)) ∧
        OnlyRegsChange [x, vf] s t)

/-- R106. -/
def Obligations.AddRegResultAndCarry : Prop :=
  ∀ (x y : Nibble) (s : State),
    decodeWord (0x8#4 ++ x ++ y ++ 0x4#4) = .instr (.addReg x y) ∧
    ∃ t, exec (.addReg x y) s = .next t ∧
      (t.reg vf).toNat = (if 255 < (s.reg x).toNat + (s.reg y).toNat then 1 else 0) ∧
      (x ≠ vf → (t.reg x).toNat = ((s.reg x).toNat + (s.reg y).toNat) % 256) ∧
      OnlyRegsChange [x, vf] s t

/-- R107, R109: the flag is 1 when there is no borrow. -/
def Obligations.SubtractResultsAndNoBorrow : Prop :=
  ∀ (x y : Nibble) (s : State),
    (decodeWord (0x8#4 ++ x ++ y ++ 0x5#4) = .instr (.subReg x y) ∧
      ∃ t, exec (.subReg x y) s = .next t ∧
        (t.reg vf).toNat = (if (s.reg y).toNat ≤ (s.reg x).toNat then 1 else 0) ∧
        (x ≠ vf → (t.reg x).toNat = ((s.reg x).toNat + 256 - (s.reg y).toNat) % 256) ∧
        OnlyRegsChange [x, vf] s t) ∧
    (decodeWord (0x8#4 ++ x ++ y ++ 0x7#4) = .instr (.subn x y) ∧
      ∃ t, exec (.subn x y) s = .next t ∧
        (t.reg vf).toNat = (if (s.reg x).toNat ≤ (s.reg y).toNat then 1 else 0) ∧
        (x ≠ vf → (t.reg x).toNat = ((s.reg y).toNat + 256 - (s.reg x).toNat) % 256) ∧
        OnlyRegsChange [x, vf] s t)

/-- R108, R110 (decisions D4, D5): any nibble 2 decodes to the same shift; with `x` = 15 the shift reads the flag just written. -/
def Obligations.ShiftResultsAndFlag : Prop :=
  ∀ (x : Nibble) (s : State),
    ((∀ y : Nibble, decodeWord (0x8#4 ++ x ++ y ++ 0x6#4) = .instr (.shr x)) ∧
      ∃ t, exec (.shr x) s = .next t ∧
        (x ≠ vf → (t.reg vf).toNat = (s.reg x).toNat % 2 ∧ (t.reg x).toNat = (s.reg x).toNat / 2) ∧
        (x = vf → t.reg vf = 0) ∧ OnlyRegsChange [x, vf] s t) ∧
    ((∀ y : Nibble, decodeWord (0x8#4 ++ x ++ y ++ 0xE#4) = .instr (.shl x)) ∧
      ∃ t, exec (.shl x) s = .next t ∧
        (x ≠ vf → (t.reg vf).toNat = (s.reg x).toNat / 128 ∧ (t.reg x).toNat = (s.reg x).toNat * 2 % 256) ∧
        (x = vf → t.reg vf = if (s.reg vf).toNat < 128 then 0 else 2) ∧ OnlyRegsChange [x, vf] s t)

/-- R112: whatever byte the environment answers, the register holds it masked. `exec`, whose type the host fixes, takes the
byte from the model's free value (log entry 3), and the next draw is another one. -/
def Obligations.RndMasksTheDrawnByte : Prop :=
  ∀ (x : Nibble) (nn : Byte) (s : State),
    decodeWord (0xC#4 ++ x ++ nn) = .instr (.rnd x nn) ∧
    (∀ (P : Config.Params) (b : Byte), ∃ t, execWith P b (.rnd x nn) s = .next t ∧ t.reg x = b &&& nn ∧
      (∀ k, nn.getLsbD k = false → (t.reg x).getLsbD k = false) ∧ OnlyRegsChange [x] s t) ∧
    ∃ t, exec (.rnd x nn) s = .next t ∧ t.reg x = Config.drawByte s.draws &&& nn ∧
      t.draws = s.draws + 1 ∧ (∀ k, k ≠ x → t.reg k = s.reg k) ∧ OnlyChanges [.v, .draws] s t

/-! ## Address-register and memory instructions (42_memory_ops.md) -/

/-- R121 (decision D1). -/
def Obligations.LdISetsAddress : Prop :=
  ∀ (nnn : Addr12) (s : State),
    decodeWord (0xA#4 ++ nnn) = .instr (.ldI nnn) ∧
    ∃ t, exec (.ldI nnn) s = .next t ∧ t.i.toNat = nnn.toNat ∧ OnlyChanges [.i] s t

/-- R122 (decision D13). -/
def Obligations.AddIWrapsAtSixteenBits : Prop :=
  ∀ (x : Nibble) (s : State),
    decodeWord (0xF#4 ++ x ++ 0x1E#8) = .instr (.addI x) ∧
    ∃ t, exec (.addI x) s = .next t ∧ t.i.toNat = (s.i.toNat + (s.reg x).toNat) % 65536 ∧ OnlyChanges [.i] s t

/-- R126 (decisions D10, D14), for every FONT_BASE a device can have, and for `exec` at the default (log entry 5). -/
def Obligations.LdFPointsAtGlyph : Prop :=
  ∀ (x : Nibble) (s : State),
    decodeWord (0xF#4 ++ x ++ 0x29#8) = .instr (.ldF x) ∧
    (∀ (P : Config.Params) (b : Byte), paramsOk P = true → ∃ t, execWith P b (.ldF x) s = .next t ∧
      t.i.toNat = P.fontBase + 5 * ((s.reg x).toNat % 16) ∧ OnlyChanges [.i] s t) ∧
    ∃ t, exec (.ldF x) s = .next t ∧ t.i.toNat = Config.fontBase + 5 * ((s.reg x).toNat % 16) ∧ OnlyChanges [.i] s t

/-- R123 (the fault: decision D7): the digits stand at `I`, or nothing is written and the machine halts. -/
def Obligations.LdBStoresDigitsOrFaults : Prop :=
  ∀ (x : Nibble) (s : State),
    decodeWord (0xF#4 ++ x ++ 0x33#8) = .instr (.ldB x) ∧
    (s.mem.wf = true → s.i.toNat + 3 ≤ 4096 →
      ∃ t, exec (.ldB x) s = .next t ∧
        (t.mem.read (effAddr s)).toNat = (s.reg x).toNat / 100 ∧
        (t.mem.read (effAddr s + 1)).toNat = (s.reg x).toNat / 10 % 10 ∧
        (t.mem.read (effAddr s + 2)).toNat = (s.reg x).toNat % 10 ∧
        SameMemoryOutside (effAddr s) 3 s t ∧ OnlyChanges [.mem] s t) ∧
    (4096 < s.i.toNat + 3 → ∃ t, exec (.ldB x) s = .next t ∧ Raises .boundsViolation s t)

/-- R124 (the fault and the unchanged `I`: decisions D7, D15): `V[0]` to `V[x]` stand at `I` upward, or nothing is written and the machine halts. -/
def Obligations.StoreRegsStoresRunOrFaults : Prop :=
  ∀ (x : Nibble) (s : State),
    decodeWord (0xF#4 ++ x ++ 0x55#8) = .instr (.storeRegs x) ∧
    (s.mem.wf = true → s.i.toNat + x.toNat + 1 ≤ 4096 →
      ∃ t, exec (.storeRegs x) s = .next t ∧
        (∀ k : Nibble, k.toNat ≤ x.toNat → t.mem.read (effAddr s + k.toNat) = s.reg k) ∧
        SameMemoryOutside (effAddr s) (x.toNat + 1) s t ∧ OnlyChanges [.mem] s t) ∧
    (4096 < s.i.toNat + x.toNat + 1 → ∃ t, exec (.storeRegs x) s = .next t ∧ Raises .boundsViolation s t)

/-- R125 (the unchanged `I`: decision D15): `V[0]` to `V[x]` are loaded from `I` upward, or no register is written and the machine halts. -/
def Obligations.LoadRegsLoadsRunOrFaults : Prop :=
  ∀ (x : Nibble) (s : State),
    decodeWord (0xF#4 ++ x ++ 0x65#8) = .instr (.loadRegs x) ∧
    (s.i.toNat + x.toNat + 1 ≤ 4096 →
      ∃ t, exec (.loadRegs x) s = .next t ∧
        (∀ k : Nibble, k.toNat ≤ x.toNat → t.reg k = s.mem.read (effAddr s + k.toNat)) ∧
        (∀ k : Nibble, x.toNat < k.toNat → t.reg k = s.reg k) ∧ OnlyChanges [.v] s t) ∧
    (4096 < s.i.toNat + x.toNat + 1 → ∃ t, exec (.loadRegs x) s = .next t ∧ Raises .boundsViolation s t)

/-! ## Display instructions (43_display_ops.md) -/

/-- R131. -/
def Obligations.ClsClearsAndMarksDirty : Prop :=
  ∀ s : State,
    decodeWord 0x00E0#16 = .instr .cls ∧
    ∃ t, exec .cls s = .next t ∧ (∀ row col, t.disp.pixel row col = false) ∧ t.dirty = true ∧
      OnlyChanges [.disp, .dirty] s t

/-- R132 (the unreduced corner: decision D16): a DRW toggles exactly the on-screen positions of the sprite's set bits; VF says whether a set pixel was among
them and dirty whether there was one at all; a sprite past the end of memory halts the machine with nothing drawn. -/
def Obligations.DrwTogglesSpriteAndReportsCollision : Prop :=
  ∀ (x y n : Nibble) (s : State),
    decodeWord (0xD#4 ++ x ++ y ++ n) = .instr (.drw x y n) ∧
    (s.i.toNat + n.toNat ≤ 4096 →
      ∃ t, exec (.drw x y n) s = .next t ∧
        (∀ row < 32, ∀ col < 64, t.disp.pixel row col = (s.disp.pixel row col ^^ spriteSetAt s x y n row col)) ∧
        ((∃ row < 32, ∃ col < 64, spriteSetAt s x y n row col = true ∧ s.disp.pixel row col = true) → t.reg vf = 1) ∧
        ((∀ row < 32, ∀ col < 64, spriteSetAt s x y n row col = true → s.disp.pixel row col = false) → t.reg vf = 0) ∧
        (t.dirty = true ↔ s.dirty = true ∨ ∃ row < 32, ∃ col < 64, spriteSetAt s x y n row col = true) ∧
        (∀ k, k ≠ vf → t.reg k = s.reg k) ∧ OnlyChanges [.v, .disp, .dirty] s t) ∧
    (4096 < s.i.toNat + n.toNat → ∃ t, exec (.drw x y n) s = .next t ∧ Raises .boundsViolation s t)

/-- Property (a) of R133, which the spec derives from R132: the same sprite drawn a second time restores the display; from a blank display with a set sprite bit on
screen the two collisions are 0, then 1. -/
def Obligations.DrawingTwiceRestoresDisplay : Prop :=
  ∀ (x y n : Nibble) (s t s' u : State),
    s.i.toNat + n.toNat ≤ 4096 → exec (.drw x y n) s = .next t →
    s'.disp = t.disp → s'.reg x = s.reg x → s'.reg y = s.reg y → s'.i = s.i →
    (∀ k < n.toNat, s'.mem.read (s.i.toNat + k) = s.mem.read (s.i.toNat + k)) →
    exec (.drw x y n) s' = .next u →
    u.disp = s.disp ∧
    (s.disp = Display.blank → (∃ row < 32, ∃ col < 64, spriteSetAt s x y n row col = true) →
      t.reg vf = 0 ∧ u.reg vf = 1)

/-! ## Timer and key instructions (44_timer_input_ops.md) -/

/-- The effects of the three timer instructions once dispatched (pseudocode of R140, R141, R142). -/
def Obligations.TimerInstructionsMoveTimers : Prop :=
  ∀ (x : Nibble) (s : State),
    (∃ t, exec (.ldVxDt x) s = .next t ∧ t.reg x = s.dt ∧ OnlyRegsChange [x] s t) ∧
    (∃ t, exec (.ldDtVx x) s = .next t ∧ t.dt = s.reg x ∧ OnlyChanges [.dt] s t) ∧
    (∃ t, exec (.ldStVx x) s = .next t ∧ t.st = s.reg x ∧ OnlyChanges [.st] s t)

/-- R140, R141, R142 over a whole cycle: a read sees the ticked value; a write overrides this cycle's tick and is first
decremented in the next cycle. -/
def Obligations.TimerInstructionsAgainstTheTick : Prop :=
  ∀ (x : Nibble) (s : State),
    decodeWord (0xF#4 ++ x ++ 0x07#8) = .instr (.ldVxDt x) ∧
    decodeWord (0xF#4 ++ x ++ 0x15#8) = .instr (.ldDtVx x) ∧
    decodeWord (0xF#4 ++ x ++ 0x18#8) = .instr (.ldStVx x) ∧
    (Fetches s (.ldVxDt x) → ∃ t, step s = .next t ∧ (t.reg x).toNat = s.dt.toNat - 1 ∧ Ticked s t ∧
      t.pc = s.pc + 2 ∧ (∀ k, k ≠ x → t.reg k = s.reg k) ∧ OnlyChanges [.v, .pc, .dt, .st] s t) ∧
    (Fetches s (.ldDtVx x) → ∃ t, step s = .next t ∧ t.dt = s.reg x ∧ t.st.toNat = s.st.toNat - 1 ∧
      t.pc = s.pc + 2 ∧ OnlyChanges [.pc, .dt, .st] s t ∧
      ∀ y u, Fetches t (.ldVxDt y) → step t = .next u →
        (u.reg y).toNat = (s.reg x).toNat - 1 ∧ u.dt.toNat = (s.reg x).toNat - 1) ∧
    (Fetches s (.ldStVx x) → ∃ t, step s = .next t ∧ t.st = s.reg x ∧ t.dt.toNat = s.dt.toNat - 1 ∧
      t.pc = s.pc + 2 ∧ OnlyChanges [.pc, .dt, .st] s t ∧
      ∀ y u, Fetches t (.ldVxDt y) → step t = .next u → u.st.toNat = (s.reg x).toNat - 1)

/-- R143, R144 (decisions D1, D14). -/
def Obligations.KeySkipsFollowTheKeyMask : Prop :=
  ∀ (x : Nibble) (s : State),
    (decodeWord (0xE#4 ++ x ++ 0x9E#8) = .instr (.skp x) ∧
      ∃ t, exec (.skp x) s = .next t ∧
        t.pc = (if s.keys.getLsbD ((s.reg x).toNat % 16) = true then s.pc + 2 else s.pc) ∧ OnlyChanges [.pc] s t) ∧
    (decodeWord (0xE#4 ++ x ++ 0xA1#8) = .instr (.sknp x) ∧
      ∃ t, exec (.sknp x) s = .next t ∧
        t.pc = (if s.keys.getLsbD ((s.reg x).toNat % 16) = true then s.pc else s.pc + 2) ∧ OnlyChanges [.pc] s t)

/-- R145: with a key down the lowest one is written; with none down `pc` goes back by 2, so that over the whole cycle
nothing but the timers changes, and they tick. -/
def Obligations.LdVxKTakesLowestKeyOrRepeats : Prop :=
  ∀ (x : Nibble) (s : State),
    decodeWord (0xF#4 ++ x ++ 0x0A#8) = .instr (.ldVxK x) ∧
    (s.keys ≠ 0 → ∃ t k, exec (.ldVxK x) s = .next t ∧ k < 16 ∧ s.keys.getLsbD k = true ∧
      (∀ j < k, s.keys.getLsbD j = false) ∧ (t.reg x).toNat = k ∧ OnlyRegsChange [x] s t) ∧
    (s.keys = 0 → ∃ t, exec (.ldVxK x) s = .next t ∧ t.pc = s.pc - 2 ∧ OnlyChanges [.pc] s t) ∧
    (Fetches s (.ldVxK x) → s.keys = 0 → ∃ t, step s = .next t ∧ Ticked s t ∧ OnlyChanges [.dt, .st] s t)

/-! ## Control flow (45_control_flow.md) -/

/-- R150. -/
def Obligations.RetPopsOrUnderflows : Prop :=
  ∀ s : State,
    decodeWord 0x00EE#16 = .instr .ret ∧
    (∀ w ws, s.stack = w :: ws →
      ∃ t, exec .ret s = .next t ∧ t.pc = w ∧ t.stack = ws ∧ OnlyChanges [.pc, .stack] s t) ∧
    (s.stack = [] → ∃ t, exec .ret s = .next t ∧ Raises .stackUnderflow s t)

/-- R151. -/
def Obligations.JpSetsPc : Prop :=
  ∀ (nnn : Addr12) (s : State),
    decodeWord (0x1#4 ++ nnn) = .instr (.jp nnn) ∧
    ∃ t, exec (.jp nnn) s = .next t ∧ t.pc.toNat = nnn.toNat ∧ OnlyChanges [.pc] s t

/-- R152 (the overflow: decision D9): for every STACK_DEPTH, finite or not, and for `exec` at the default (log entry 6). -/
def Obligations.CallPushesOrOverflows : Prop :=
  ∀ (nnn : Addr12) (s : State),
    decodeWord (0x2#4 ++ nnn) = .instr (.call nnn) ∧
    (∀ (P : Config.Params) (b : Byte),
      (P.stackDepth ≠ some s.stack.length → ∃ t, execWith P b (.call nnn) s = .next t ∧
        t.pc.toNat = nnn.toNat ∧ t.stack = s.pc :: s.stack ∧ OnlyChanges [.pc, .stack] s t) ∧
      (P.stackDepth = some s.stack.length → ∃ t, execWith P b (.call nnn) s = .next t ∧ Raises .stackOverflow s t)) ∧
    (Config.stackDepth ≠ some s.stack.length →
      ∃ t, exec (.call nnn) s = .next t ∧ t.pc.toNat = nnn.toNat ∧ t.stack = s.pc :: s.stack ∧
        OnlyChanges [.pc, .stack] s t)

/-- The source's test quoted in R152: a RET that finds the stack its CALL left returns to the address after the call. -/
def Obligations.RetUndoesCall : Prop :=
  ∀ (nnn : Addr12) (s t s' : State), Config.stackDepth ≠ some s.stack.length →
    exec (.call nnn) s = .next t → s'.stack = t.stack →
    ∃ u, exec .ret s' = .next u ∧ u.pc = s.pc ∧ u.stack = s.stack

/-- R158 (decision D13). -/
def Obligations.JpV0AddsWithoutTruncation : Prop :=
  ∀ (nnn : Addr12) (s : State),
    decodeWord (0xB#4 ++ nnn) = .instr (.jpV0 nnn) ∧
    ∃ t, exec (.jpV0 nnn) s = .next t ∧ t.pc.toNat = nnn.toNat + (s.reg 0).toNat ∧ OnlyChanges [.pc] s t

/-- R153, R154, R155, R156. -/
def Obligations.CompareSkipsAdvanceByTwo : Prop :=
  ∀ (x y : Nibble) (nn : Byte) (s : State),
    (decodeWord (0x3#4 ++ x ++ nn) = .instr (.seImm x nn) ∧
      ∃ t, exec (.seImm x nn) s = .next t ∧ t.pc = (if s.reg x = nn then s.pc + 2 else s.pc) ∧
        OnlyChanges [.pc] s t) ∧
    (decodeWord (0x4#4 ++ x ++ nn) = .instr (.sneImm x nn) ∧
      ∃ t, exec (.sneImm x nn) s = .next t ∧ t.pc = (if s.reg x = nn then s.pc else s.pc + 2) ∧
        OnlyChanges [.pc] s t) ∧
    (decodeWord (0x5#4 ++ x ++ y ++ 0x0#4) = .instr (.seReg x y) ∧
      ∃ t, exec (.seReg x y) s = .next t ∧ t.pc = (if s.reg x = s.reg y then s.pc + 2 else s.pc) ∧
        OnlyChanges [.pc] s t) ∧
    (decodeWord (0x9#4 ++ x ++ y ++ 0x0#4) = .instr (.sneReg x y) ∧
      ∃ t, exec (.sneReg x y) s = .next t ∧ t.pc = (if s.reg x = s.reg y then s.pc else s.pc + 2) ∧
        OnlyChanges [.pc] s t)

/-- R159: an illegal word halts the machine; the timers have ticked and `pc` is `a + 2`. -/
def Obligations.InvalidWordHalts : Prop :=
  ∀ s : State, s.halt = none → s.pc.toNat + 2 ≤ 4096 → decodeWord (wordAt s s.pc) = .invalid →
    ∃ t, step s = .next t ∧ t.halt = some ⟨.decodeFailure, s.pc, wordAt s s.pc⟩ ∧ t.pc = s.pc + 2 ∧ Ticked s t ∧
      OnlyChanges [.pc, .dt, .st, .halt] s t

/-! ## Decoder (30_encoding.md) -/

/-- 95_test_vectors.md T1, T2, T5: words of each of the sixteen families, written out, and what they decode to. -/
def Obligations.WrittenOutWordsDecode : Prop :=
  decodeWord 0x00E0 = .instr .cls ∧ decodeWord 0x1234 = .instr (.jp 0x234) ∧
  decodeWord 0x2FFF = .instr (.call 0xFFF) ∧ decodeWord 0x3A7F = .instr (.seImm 10 0x7F) ∧
  decodeWord 0x4B00 = .instr (.sneImm 11 0) ∧ decodeWord 0x5AB0 = .instr (.seReg 10 11) ∧
  decodeWord 0x6C42 = .instr (.ldImm 12 0x42) ∧ decodeWord 0x7DFF = .instr (.addImm 13 0xFF) ∧
  decodeWord 0x8AB6 = .instr (.shr 10) ∧ decodeWord 0x8CD7 = .instr (.subn 12 13) ∧
  decodeWord 0x9010 = .instr (.sneReg 0 1) ∧ decodeWord 0xA123 = .instr (.ldI 0x123) ∧
  decodeWord 0xBFFF = .instr (.jpV0 0xFFF) ∧ decodeWord 0xC7F0 = .instr (.rnd 7 0xF0) ∧
  decodeWord 0xD89A = .instr (.drw 8 9 10) ∧ decodeWord 0xECA1 = .instr (.sknp 12) ∧
  decodeWord 0xF633 = .instr (.ldB 6) ∧ decodeWord 0xF865 = .instr (.loadRegs 8) ∧
  decodeWord 0x0000 = .invalid ∧ decodeWord 0x01E0 = .invalid ∧ decodeWord 0x5001 = .invalid ∧
  decodeWord 0x8008 = .invalid ∧ decodeWord 0x9ABF = .invalid ∧ decodeWord 0xE19F = .invalid ∧
  decodeWord 0xF056 = .invalid ∧ decodeWord 0xFFFF = .invalid

/-- The first law of R81: `decode(encode(op)) == op` for every instruction and every field value. -/
def Obligations.DecodeUndoesEncode : Prop :=
  ∀ (i : Instr) (rest : List Byte),
    decodeWord (encode i) = .instr i ∧ decodeBytes (encodeBytes i ++ rest) = .ok i rest

/-- The second law of R81: `encode(decode(w)) == w` for every legal word but the shift words, whose nibble 2 becomes 0. -/
def Obligations.EncodeUndoesDecode : Prop :=
  ∀ (w : Word) (i : Instr), decodeWord w = .instr i →
    ((∀ x, i ≠ .shr x ∧ i ≠ .shl x) → encode i = w) ∧
    ((∃ x, i = .shr x ∨ i = .shl x) → encode i = w &&& 0xFF0F)

/-- R76: the decoder agrees with the opcode map's match and mask columns, whose rows are disjoint. -/
def Obligations.DecoderAgreesWithOpcodeMap : Prop :=
  ∀ w : Word,
    (∀ i, decodeWord w = .instr i → i.row ∈ opcodeRows ∧ i.row.selects w = true) ∧
    (∀ r ∈ opcodeRows, r.selects w = true → ∃ i, decodeWord w = .instr i ∧ i.row = r) ∧
    (∀ r ∈ opcodeRows, ∀ r' ∈ opcodeRows, r.selects w = true → r'.selects w = true → r = r') ∧
    (decodeWord w = .invalid ↔ legalWord w = false)

/-! ## The cycle (40_engine_cycle.md) and faults (60_exceptions.md) -/

/-- Steps 1 to 4 of R90 without a fault: a running machine whose two bytes at `pc` decode to `i` takes the step of `i` with both timers ticked and
`pc` advanced by 2, at the default parameters and at every other, whatever byte the environment answers. -/
def Obligations.StepRunsTheDecodedInstruction : Prop :=
  ∀ (s : State) (i : Instr), s.halt = none → s.pc.toNat + 2 ≤ 4096 →
    decodeBytes [s.mem.read s.pc.toNat, s.mem.read (s.pc.toNat + 1)] = .ok i [] →
    step s = exec i { s with pc := s.pc + 2, dt := tickByte s.dt, st := tickByte s.st } ∧
    ∀ (P : Config.Params) (b : Byte),
      cycleWith P b s = execWith P b i { s with pc := s.pc + 2, dt := tickByte s.dt, st := tickByte s.st }

/-- R93 (decision D8). -/
def Obligations.HaltedCycleChangesNothing : Prop :=
  ∀ (s : State) (f : FaultRecord), s.halt = some f →
    step s = .next s ∧ ∀ (P : Config.Params) (b : Byte), cycleWith P b s = .next s

/-- The fetch row of R172 with the record of R174: a fetch past the end of memory halts the machine with `pc` not advanced and word 0. -/
def Obligations.FetchPastEndHalts : Prop :=
  ∀ s : State, s.halt = none → 4095 ≤ s.pc.toNat →
    ∃ t, step s = .next t ∧ t.halt = some ⟨.boundsViolation, s.pc, 0⟩ ∧ Ticked s t ∧ OnlyChanges [.dt, .st, .halt] s t

/-- The model's reading (log entry 1): a fault is a state, so every cycle of every state has a next state, whatever the
parameters and the drawn byte. -/
def Obligations.EveryCycleHasANextState : Prop :=
  ∀ s : State, (∃ t, step s = .next t) ∧ (∀ i, ∃ t, exec i s = .next t) ∧
    ∀ (P : Config.Params) (b : Byte), (∃ f, blockCycle P b s.toElements = .next f) ∧ ∀ i, ∃ t, execWith P b i s = .next t

/-- The table of R172, which is the spec's own inference from its instruction rules: a cycle that starts in the running state
faults exactly on the listed conditions, with the listed kind, at the default parameters and at every other. -/
def Obligations.FaultsExactlyOnTheListedConditions : Prop :=
  ∀ s t : State, s.halt = none →
    (step s = .next t → t.halt.map FaultRecord.kind = cycleFault Config.params s) ∧
    ∀ (P : Config.Params) (b : Byte), cycleWith P b s = .next t → t.halt.map FaultRecord.kind = cycleFault P s

/-- R174 (decision D8): a fault is precise: the tick stands, `pc` is `a` or `a + 2`, `halt` holds the address and the word (0 when
the fetch faulted), and nothing else changes. -/
def Obligations.FaultsArePrecise : Prop :=
  ∀ (s t : State) (f : FaultRecord), s.halt = none →
    (step s = .next t ∨ ∃ P b, cycleWith P b s = .next t) → t.halt = some f →
    f.addr = s.pc ∧ Ticked s t ∧
    (4095 ≤ s.pc.toNat → f.word = 0 ∧ t.pc = s.pc) ∧
    (s.pc.toNat < 4095 → f.word = wordAt s s.pc ∧ t.pc = s.pc + 2) ∧
    OnlyChanges [.pc, .dt, .st, .halt] s t

/-- From R23, R26, R29 to R32, R54: each component other than the registers, `pc` and `halt` is changed only by the
instructions its rule names; `KEYS` by none. -/
def Obligations.ComponentsChangeOnlyByTheirInstructions : Prop :=
  ∀ (i : Instr) (s t : State), exec i s = .next t → OnlyChanges ([.v, .pc, .halt] ++ mayChange i) s t

/-- From R22: a register that is no destination is unchanged, but VF by the instructions of R22's table. -/
def Obligations.RegistersChangeOnlyAsDestinationOrFlag : Prop :=
  ∀ (i : Instr) (s t : State) (k : Nibble), exec i s = .next t → destRegs i k = false →
    (k = vf → writesFlag i = false) → t.reg k = s.reg k

/-- From R25: how each instruction leaves `pc`. -/
def Obligations.PcAfterEachInstruction : Prop :=
  ∀ (i : Instr) (s t : State), exec i s = .next t → t.pc = pcAfter i s

/-- From R91: in every cycle of a running machine both timers tick, but for the timer the instruction writes. -/
def Obligations.TimersTickInEveryRunningCycle : Prop :=
  ∀ s t : State, s.halt = none → step s = .next t →
    ((∀ x, ¬ Fetches s (.ldDtVx x)) → t.dt.toNat = s.dt.toNat - 1) ∧
    ((∀ x, ¬ Fetches s (.ldStVx x)) → t.st.toNat = s.st.toNat - 1)

/-- From R34: `n` ticks take a timer down by `n`, floored at zero. -/
def Obligations.TicksCountDownToZero : Prop :=
  ∀ (n : Nat) (s : State), (tick^[n] s).dt.toNat = s.dt.toNat - n ∧ (tick^[n] s).st.toNat = s.st.toNat - n ∧
    OnlyChanges [.dt, .st] s (tick^[n] s)

/-- From R30 and R35: what a program computes does not depend on `dirty` or `ST`. Both runs are given the same drawn byte, as
R95 says of equal runs: in `step` because equal counts draw equal bytes, which is the model's own (log entry 3), in the
block's cycle as an input. -/
def Obligations.DirtyAndSoundTimerAreUnobservable : Prop :=
  ∀ (s t : State) (d : Bool) (z : Byte),
    (step s = .next t → ∃ t', step { s with dirty := d, st := z } = .next t' ∧ SameButDirtyAndSt t t') ∧
    ∀ (P : Config.Params) (b : Byte), cycleWith P b s = .next t →
      ∃ t', cycleWith P b { s with dirty := d, st := z } = .next t' ∧ SameButDirtyAndSt t t'

/-! ## Memory (20_memory.md) -/

/-- R52 (the one-byte read: decision D7). -/
def Obligations.MemReadChecksAndReadsRange : Prop :=
  ∀ (s : State) (a n : Nat),
    (4096 < a + n → memRead s a n = none) ∧
    (a + n ≤ 4096 → ∃ bs, memRead s a n = some bs ∧ bs.length = n ∧ ∀ k < n, bs[k]? = some (s.mem.read (a + k)))

/-- From R53 (decision D7), with the model's own representation: the canonical form, assumed before and kept after, is of log
entry 4 and not of the rule. -/
def Obligations.MemWriteChecksAndWritesRange : Prop :=
  ∀ (s : State) (a : Nat) (bs : List Byte),
    (4096 < a + bs.length → memWrite s a bs = none) ∧
    (s.mem.wf = true → a + bs.length ≤ 4096 →
      ∃ t, memWrite s a bs = some t ∧ (∀ k < bs.length, bs[k]? = some (t.mem.read (a + k))) ∧
        SameMemoryOutside a bs.length s t ∧ OnlyChanges [.mem] s t ∧ t.mem.wf = true)

/-- R60, which the spec derives: a word stored is what the next fetch from there reads, its first byte the more significant. -/
def Obligations.StoreIsSeenByTheNextFetch : Prop :=
  ∀ (s t : State) (a : Word) (hi lo : Byte), s.mem.wf = true → memWrite s a.toNat [hi, lo] = some t →
    fetchWord t a = some (hi ++ lo)

/-- The model's own representation (log entry 4): memories with the same contents are the same data. -/
def Obligations.EqualContentsAreEqualMemories : Prop :=
  ∀ m m' : Memory, m.wf = true → m'.wf = true → (∀ a, m.read a = m'.read a) → m = m'

/-! ## The invariant -/

/-- Every step, and every cycle of the block for every parameter and drawn byte, keeps the invariant, whose bounds the spec
derives in R25. Its clause on memory's canonical form is the model's own (log entry 4). -/
def Obligations.StepKeepsTheInvariant : Prop :=
  (∀ s t : State, Inv Config.params s.toElements → step s = .next t → Inv Config.params t.toElements) ∧
  (∀ (P : Config.Params) (b : Byte) (e f : Elements), Inv P e → blockCycle P b e = .next f → Inv P f)

/-- The state after Reset has the invariant. Its clause on memory's canonical form is the model's own (log entry 4). -/
def Obligations.ResetHasTheInvariant : Prop :=
  Inv Config.params State.reset.toElements ∧ ∀ P : Config.Params, paramsOk P = true → Inv P (resetElements P)

/-- Every state a host can bring about by the nine events has the invariant, for every parameter a device can have and whatever
bytes are drawn. Its clause on memory's canonical form is the model's own (log entry 4). -/
def Obligations.ReachableStatesHaveTheInvariant : Prop :=
  ∀ (P : Config.Params) (p : Phase) (e : Elements), paramsOk P = true → Reachable P (.live p e) → Inv P e

/-! ## Host events (60_exceptions.md, 70_reset_and_hazards.md), on the block's eleven elements -/

/-- R201, R40 (decisions D8, D10, D20): Reset, from the unreset block and from any state, leaves every element as the table
says, for every FONT_BASE and FONT_DATA a device can have; `State.reset` is that state at the default parameters. -/
def Obligations.ResetLeavesTheTabledValues : Prop :=
  (∀ (P : Config.Params) (a : Byte) (b : Block), paramsOk P = true →
    ∃ t, respond P a .reset b = .next (.live .fresh t, .done) ∧
      (∀ k, t.reg k = 0) ∧ t.i = 0 ∧ t.pc = 0x200 ∧ t.stack = [] ∧
      (∀ k < 80, some (t.mem.read (P.fontBase + k)) = P.fontData[k]?) ∧
      (∀ k, k < P.fontBase ∨ P.fontBase + 80 ≤ k → t.mem.read k = 0) ∧
      (∀ row col, t.disp.pixel row col = false) ∧ t.dirty = false ∧ t.dt = 0 ∧ t.st = 0 ∧ t.keys = 0 ∧ t.halt = none) ∧
  respond Config.params 0 .reset .unreset = .next (.live .fresh State.reset.toElements, .done)

/-- R202: Load copies the font and the image and changes nothing else. -/
def Obligations.LoadCopiesFontAndImage : Prop :=
  ∀ (P : Config.Params) (a : Byte) (img : List Byte) (e : Elements), paramsOk P = true → e.mem.wf = true →
    img.length ≤ 3584 →
    ∃ t, respond P a (.load img) (.live .fresh e) = .next (.live .loaded t, .done) ∧
      (∀ k < img.length, some (t.mem.read (0x200 + k)) = img[k]?) ∧
      (∀ k < 80, some (t.mem.read (P.fontBase + k)) = P.fontData[k]?) ∧
      (∀ b, (b < P.fontBase ∨ P.fontBase + 80 ≤ b) → (b < 0x200 ∨ 0x200 + img.length ≤ b) →
        t.mem.read b = e.mem.read b) ∧
      OnlyElementsChange [.mem] e t

/-- From R200, R203 and R190 (the last the spec's own inference): what the host may not do is refused. The refusals' names,
and the phase that holds what the legality of Load depends on, are the model's own (log entry 13). A Cycle answers the block's
cycle and leaves the phase in which no Load is legal (R90, R180, R203). The last clause is the model's own (log entry 3): where
the environment's answer is the free value at the state's count, the Cycle gives the state of `step`. -/
def Obligations.HostMisuseIsRefused : Prop :=
  ∀ (P : Config.Params) (a : Byte) (img : List Byte) (k : Nat) (p : Phase) (e : Elements) (ev : Event),
    (p ≠ .fresh → respond P a (.load img) (.live p e) = .refused .loadOutsideWindow) ∧
    (3584 < img.length → respond P a (.load img) (.live .fresh e) = .refused .imageTooLong) ∧
    (16 ≤ k → respond P a (.keyPress k) (.live p e) = .refused .keyIndexOutOfRange ∧
      respond P a (.keyRelease k) (.live p e) = .refused .keyIndexOutOfRange) ∧
    (ev ≠ .reset → respond P a ev .unreset = .refused .notReset) ∧
    (∀ f, blockCycle P a e = .next f → respond P a .cycle (.live p e) = .next (.live .running f, .done)) ∧
    (∀ s t : State, a = Config.drawByte s.draws → step s = .next t →
      respond Config.params a .cycle (.live p s.toElements) = .next (.live .running t.toElements, .done))

/-- R182, R183. -/
def Obligations.KeyEventsSetAndClearOneBit : Prop :=
  ∀ (P : Config.Params) (a : Byte) (k : Nat) (p : Phase) (e : Elements), k < 16 →
    (∃ t, respond P a (.keyPress k) (.live p e) = .next (.live p t, .done) ∧ t.keys.getLsbD k = true ∧
      (∀ j, j ≠ k → t.keys.getLsbD j = e.keys.getLsbD j) ∧ OnlyElementsChange [.keys] e t) ∧
    (∃ t, respond P a (.keyRelease k) (.live p e) = .next (.live p t, .done) ∧ t.keys.getLsbD k = false ∧
      (∀ j, j ≠ k → t.keys.getLsbD j = e.keys.getLsbD j) ∧ OnlyElementsChange [.keys] e t)

/-- R184: Display read gives 2048 pixels in row-major order and changes nothing. -/
def Obligations.DisplayReadIsRowMajor : Prop :=
  ∀ (P : Config.Params) (a : Byte) (p : Phase) (e : Elements), ∃ g,
    respond P a .displayRead (.live p e) = .next (.live p e, .pixels 64 32 g) ∧ g.length = 2048 ∧
    ∀ row < 32, ∀ col < 64, g[row * 64 + col]? = some (e.disp.pixel row col)

/-- R185, R186, R187. -/
def Obligations.HostReadsReportState : Prop :=
  ∀ (P : Config.Params) (a : Byte) (p : Phase) (e : Elements),
    (∃ t, respond P a .dirtyQuery (.live p e) = .next (.live p t, .dirtyWas e.dirty) ∧ t.dirty = false ∧
      OnlyElementsChange [.dirty] e t) ∧
    respond P a .timerSample (.live p e) = .next (.live p e, .timers e.dt e.st) ∧
    respond P a .faultReport (.live p e) = .next (.live p e, .report e.halt)

/-- From R190, the spec's own inference: an event other than Reset, Load and Cycle changes at most `KEYS` and `dirty`. -/
def Obligations.HostEventsReachOnlyKeysAndDirty : Prop :=
  ∀ (P : Config.Params) (a : Byte) (ev : Event) (p : Phase) (e : Elements) (b : Block) (r : Response),
    ev ≠ .reset → ev ≠ .cycle → (∀ img, ev ≠ .load img) → respond P a ev (.live p e) = .next (b, r) →
    ∃ t, b = .live p t ∧ OnlyElementsChange [.keys, .dirty] e t

/-- From R175: no sequence of events without a Reset clears the latch or moves a halted machine on. A halt needs a Cycle, and
after one no Load is accepted (R203): there memory stands too (R54). -/
def Obligations.OnlyResetLeavesTheHaltedState : Prop :=
  ∀ (P : Config.Params) (es : List (Event × Byte)) (p : Phase) (e : Elements) (f : FaultRecord) (b : Block)
    (rs : List Response),
    (∀ x ∈ es, x.1 ≠ .reset) → e.halt = some f → respondAll P es (.live p e) = .next (b, rs) →
    ∃ q t, b = .live q t ∧ t.halt = some f ∧ OnlyElementsChange [.mem, .keys, .dirty] e t ∧
      (p = .running → q = .running ∧ OnlyElementsChange [.keys, .dirty] e t)

/-! ## The two forms of the machine -/

/-- How the two forms of the machine agree (log entries 3, 5, 6): the step is the block's own Cycle on the eleven elements at
the default parameters, with the free value as the byte the environment answers; and only CALL, LD F and RND depend on a
parameter or on that byte. -/
def Obligations.StepIsTheBlockCycle : Prop :=
  (∀ s : State, ∃ t, step s = .next t ∧
    blockCycle Config.params (Config.drawByte s.draws) s.toElements = .next t.toElements) ∧
  (∀ (P : Config.Params) (b : Byte) (i : Instr) (s : State),
    (∀ nnn, i ≠ .call nnn) → (∀ x, i ≠ .ldF x) → (∀ x nn, i ≠ .rnd x nn) → execWith P b i s = exec i s)
end

