-- ==== Sys2Proof/Laws/Decode.lean ====
section
/-! SUPPORT. The fields of a word put together by a format, a word put together from its own fields, and what each family
of the decoder answers. -/
namespace Sys2Proof

@[simp] theorem fieldOp_formAddr (op : Nibble) (nnn : Addr12) : fieldOp (formAddr op nnn) = op := by
  apply BitVec.eq_of_getLsbD_eq
  intro k hk
  simp only [fieldOp, formAddr, BitVec.getLsbD_extractLsb', BitVec.getLsbD_append]
  grind

@[simp] theorem fieldNNN_formAddr (op : Nibble) (nnn : Addr12) : fieldNNN (formAddr op nnn) = nnn := by
  apply BitVec.eq_of_getLsbD_eq
  intro k hk
  simp only [fieldNNN, formAddr, BitVec.getLsbD_extractLsb', BitVec.getLsbD_append]
  grind

@[simp] theorem fieldOp_formXNN (op x : Nibble) (nn : Byte) : fieldOp (formXNN op x nn) = op := by
  apply BitVec.eq_of_getLsbD_eq
  intro k hk
  simp only [fieldOp, formXNN, BitVec.getLsbD_extractLsb', BitVec.getLsbD_append]
  grind

@[simp] theorem fieldX_formXNN (op x : Nibble) (nn : Byte) : fieldX (formXNN op x nn) = x := by
  apply BitVec.eq_of_getLsbD_eq
  intro k hk
  simp only [fieldX, formXNN, BitVec.getLsbD_extractLsb', BitVec.getLsbD_append]
  grind

@[simp] theorem fieldNN_formXNN (op x : Nibble) (nn : Byte) : fieldNN (formXNN op x nn) = nn := by
  apply BitVec.eq_of_getLsbD_eq
  intro k hk
  simp only [fieldNN, formXNN, BitVec.getLsbD_extractLsb', BitVec.getLsbD_append]
  grind

@[simp] theorem fieldOp_formXYN (op x y n : Nibble) : fieldOp (formXYN op x y n) = op := by
  apply BitVec.eq_of_getLsbD_eq
  intro k hk
  simp only [fieldOp, formXYN, BitVec.getLsbD_extractLsb', BitVec.getLsbD_append]
  grind

@[simp] theorem fieldX_formXYN (op x y n : Nibble) : fieldX (formXYN op x y n) = x := by
  apply BitVec.eq_of_getLsbD_eq
  intro k hk
  simp only [fieldX, formXYN, BitVec.getLsbD_extractLsb', BitVec.getLsbD_append]
  grind

@[simp] theorem fieldY_formXYN (op x y n : Nibble) : fieldY (formXYN op x y n) = y := by
  apply BitVec.eq_of_getLsbD_eq
  intro k hk
  simp only [fieldY, formXYN, BitVec.getLsbD_extractLsb', BitVec.getLsbD_append]
  grind

@[simp] theorem fieldN_formXYN (op x y n : Nibble) : fieldN (formXYN op x y n) = n := by
  apply BitVec.eq_of_getLsbD_eq
  intro k hk
  simp only [fieldN, formXYN, BitVec.getLsbD_extractLsb', BitVec.getLsbD_append]
  grind

theorem formAddr_fields (w : Word) : formAddr (fieldOp w) (fieldNNN w) = w := by
  apply BitVec.eq_of_getLsbD_eq
  intro k hk
  simp only [fieldOp, fieldNNN, formAddr, BitVec.getLsbD_extractLsb', BitVec.getLsbD_append]
  grind

theorem formXNN_fields (w : Word) : formXNN (fieldOp w) (fieldX w) (fieldNN w) = w := by
  apply BitVec.eq_of_getLsbD_eq
  intro k hk
  simp only [fieldOp, fieldX, fieldNN, formXNN, BitVec.getLsbD_extractLsb', BitVec.getLsbD_append]
  grind

theorem formXYN_fields (w : Word) : formXYN (fieldOp w) (fieldX w) (fieldY w) (fieldN w) = w := by
  apply BitVec.eq_of_getLsbD_eq
  intro k hk
  simp only [fieldOp, fieldX, fieldY, fieldN, formXYN, BitVec.getLsbD_extractLsb', BitVec.getLsbD_append]
  grind

/-- R55: the two bytes of a word give it back. -/
@[simp] theorem wordOfBytes_highByte_lowByte (w : Word) : wordOfBytes (highByte w) (lowByte w) = w := by
  apply BitVec.eq_of_getLsbD_eq
  intro k hk
  simp only [wordOfBytes, highByte, lowByte, BitVec.getLsbD_extractLsb', BitVec.getLsbD_append]
  grind

/-- R72: what a mask of whole nibbles keeps of a word. -/
theorem and_maskOp (w : Word) : w &&& 0xF000#16 = formXYN (fieldOp w) 0 0 0 := by
  apply BitVec.eq_of_getLsbD_eq
  intro k hk
  simp only [fieldOp, formXYN, BitVec.getLsbD_extractLsb', BitVec.getLsbD_append, BitVec.getLsbD_and]
  interval_cases k <;> simp

theorem and_maskOpN (w : Word) : w &&& 0xF00F#16 = formXYN (fieldOp w) 0 0 (fieldN w) := by
  apply BitVec.eq_of_getLsbD_eq
  intro k hk
  simp only [fieldOp, fieldN, formXYN, BitVec.getLsbD_extractLsb', BitVec.getLsbD_append, BitVec.getLsbD_and]
  interval_cases k <;> simp

theorem and_maskOpNN (w : Word) : w &&& 0xF0FF#16 = formXNN (fieldOp w) 0 (fieldNN w) := by
  apply BitVec.eq_of_getLsbD_eq
  intro k hk
  simp only [fieldOp, fieldNN, formXNN, BitVec.getLsbD_extractLsb', BitVec.getLsbD_append, BitVec.getLsbD_and]
  interval_cases k <;> simp

theorem and_maskAll (w : Word) : w &&& 0xFFFF#16 = w := by
  apply BitVec.eq_of_getLsbD_eq
  intro k hk
  simp only [BitVec.getLsbD_and]
  interval_cases k <;> simp

/-- Words of format XYN agree exactly when their nibbles do. -/
theorem formXYN_inj (a b c d a' b' c' d' : Nibble) :
    formXYN a b c d = formXYN a' b' c' d' ↔ a = a' ∧ b = b' ∧ c = c' ∧ d = d' := by
  constructor
  · intro h
    have h1 := congrArg fieldOp h
    have h2 := congrArg fieldX h
    have h3 := congrArg fieldY h
    have h4 := congrArg fieldN h
    simp at h1 h2 h3 h4
    exact ⟨h1, h2, h3, h4⟩
  · rintro ⟨rfl, rfl, rfl, rfl⟩
    rfl

/-- Words of format XNN agree exactly when their fields do. -/
theorem formXNN_inj (a b a' b' : Nibble) (c c' : Byte) :
    formXNN a b c = formXNN a' b' c' ↔ a = a' ∧ b = b' ∧ c = c' := by
  constructor
  · intro h
    have h1 := congrArg fieldOp h
    have h2 := congrArg fieldX h
    have h3 := congrArg fieldNN h
    simp at h1 h2 h3
    exact ⟨h1, h2, h3⟩
  · rintro ⟨rfl, rfl, rfl⟩
    rfl

/-! ## Rows of the opcode map -/

/-- A row that fixes nibble 0. -/
theorem selects_op (k : Nibble) {p m : Word} (hp : p = formXYN k 0 0 0) (hm : m = 0xF000#16) (w : Word) :
    (OpcodeRow.mk p m).selects w = true ↔ fieldOp w = k := by
  subst hp hm
  simp [OpcodeRow.selects, and_maskOp, formXYN_inj]

/-- A row that fixes nibbles 0 and 3. -/
theorem selects_opN (k n : Nibble) {p m : Word} (hp : p = formXYN k 0 0 n) (hm : m = 0xF00F#16) (w : Word) :
    (OpcodeRow.mk p m).selects w = true ↔ fieldOp w = k ∧ fieldN w = n := by
  subst hp hm
  simp [OpcodeRow.selects, and_maskOpN, formXYN_inj]

/-- A row that fixes nibble 0 and the low byte. -/
theorem selects_opNN (k : Nibble) (nn : Byte) {p m : Word} (hp : p = formXNN k 0 nn) (hm : m = 0xF0FF#16) (w : Word) :
    (OpcodeRow.mk p m).selects w = true ↔ fieldOp w = k ∧ fieldNN w = nn := by
  subst hp hm
  simp [OpcodeRow.selects, and_maskOpNN, formXNN_inj]

/-- A row that fixes the whole word. -/
theorem selects_all {p m : Word} (hm : m = 0xFFFF#16) (w : Word) :
    (OpcodeRow.mk p m).selects w = true ↔ w = p := by
  subst hm
  rw [OpcodeRow.selects, and_maskAll, beq_iff_eq]

/-! ## What decodes to an instruction -/

/-- What a word looks like that decodes to an instruction: the instruction's own encoding, or a shift word with any
nibble 2 (R79). -/
def DecodesFrom (w : Word) (i : Instr) : Prop :=
  w = encode i ∨ (∃ x y, i = .shr x ∧ w = formXYN 0x8 x y 0x6) ∨ (∃ x y, i = .shl x ∧ w = formXYN 0x8 x y 0xE)

theorem eq_formAddr {w : Word} {op : Nibble} (ho : fieldOp w = op) : w = formAddr op (fieldNNN w) := by
  rw [← ho, formAddr_fields]

theorem eq_formXNN {w : Word} {op : Nibble} {nn : Byte} (ho : fieldOp w = op) (hn : fieldNN w = nn) :
    w = formXNN op (fieldX w) nn := by
  rw [← ho, ← hn, formXNN_fields]

theorem eq_formXYN {w : Word} {op n : Nibble} (ho : fieldOp w = op) (hn : fieldN w = n) :
    w = formXYN op (fieldX w) (fieldY w) n := by
  rw [← ho, ← hn, formXYN_fields]

theorem decodeFamily0_inv {w : Word} {i : Instr} (h : decodeFamily0 w = .instr i) : DecodesFrom w i := by
  unfold decodeFamily0 at h
  split_ifs at h <;> cases h <;> exact .inl ‹_›

theorem decodeFamily5_inv {w : Word} {i : Instr} (ho : fieldOp w = 0x5#4) (h : decodeFamily5 w = .instr i) :
    DecodesFrom w i := by
  unfold decodeFamily5 at h
  split_ifs at h with hn
  cases h
  exact .inl (eq_formXYN ho hn)

theorem decodeFamily9_inv {w : Word} {i : Instr} (ho : fieldOp w = 0x9#4) (h : decodeFamily9 w = .instr i) :
    DecodesFrom w i := by
  unfold decodeFamily9 at h
  split_ifs at h with hn
  cases h
  exact .inl (eq_formXYN ho hn)

theorem decodeFamily8_inv {w : Word} {i : Instr} (ho : fieldOp w = 0x8#4) (h : decodeFamily8 w = .instr i) :
    DecodesFrom w i := by
  simp only [decodeFamily8] at h
  split_ifs at h <;> cases h <;> first
    | exact .inr (.inl ⟨_, _, rfl, eq_formXYN ho ‹_›⟩)
    | exact .inr (.inr ⟨_, _, rfl, eq_formXYN ho ‹_›⟩)
    | exact .inl (eq_formXYN ho ‹_›)

theorem decodeFamilyE_inv {w : Word} {i : Instr} (ho : fieldOp w = 0xE#4) (h : decodeFamilyE w = .instr i) :
    DecodesFrom w i := by
  unfold decodeFamilyE at h
  split_ifs at h <;> cases h <;> exact .inl (eq_formXNN ho ‹_›)

theorem decodeFamilyF_inv {w : Word} {i : Instr} (ho : fieldOp w = 0xF#4) (h : decodeFamilyF w = .instr i) :
    DecodesFrom w i := by
  simp only [decodeFamilyF] at h
  split_ifs at h <;> cases h <;> exact .inl (eq_formXNN ho ‹_›)

theorem nibble_cases (k : Nibble) : k = 0x0#4 ∨ k = 0x1#4 ∨ k = 0x2#4 ∨ k = 0x3#4 ∨ k = 0x4#4 ∨ k = 0x5#4 ∨
    k = 0x6#4 ∨ k = 0x7#4 ∨ k = 0x8#4 ∨ k = 0x9#4 ∨ k = 0xA#4 ∨ k = 0xB#4 ∨ k = 0xC#4 ∨ k = 0xD#4 ∨ k = 0xE#4 ∨
    k = 0xF#4 := by
  revert k
  decide

/-- R79, R80: the words that decode to an instruction. -/
theorem decodeWord_inv {w : Word} {i : Instr} (h : decodeWord w = .instr i) : DecodesFrom w i := by
  unfold decodeWord at h
  rcases nibble_cases (fieldOp w) with ho | ho | ho | ho | ho | ho | ho | ho | ho | ho | ho | ho | ho | ho | ho | ho <;>
    simp only [ho, reduceIte, BitVec.reduceEq] at h
  · exact decodeFamily0_inv h
  · cases h; exact .inl (eq_formAddr ho)
  · cases h; exact .inl (eq_formAddr ho)
  · cases h; exact .inl (eq_formXNN ho rfl)
  · cases h; exact .inl (eq_formXNN ho rfl)
  · exact decodeFamily5_inv ho h
  · cases h; exact .inl (eq_formXNN ho rfl)
  · cases h; exact .inl (eq_formXNN ho rfl)
  · exact decodeFamily8_inv ho h
  · exact decodeFamily9_inv ho h
  · cases h; exact .inl (eq_formAddr ho)
  · cases h; exact .inl (eq_formAddr ho)
  · cases h; exact .inl (eq_formXNN ho rfl)
  · cases h; exact .inl (eq_formXYN ho rfl)
  · exact decodeFamilyE_inv ho h
  · exact decodeFamilyF_inv ho h

end Sys2Proof
end

