-- ==== Sys2Proof/Laws/State.lean ====
section
/-! SUPPORT. One lemma per field per update of State, each true by rfl, so that no later proof unfolds an update. -/
namespace Sys2Proof.Machine.State

variable (s : State)

theorem setReg_v (x : Nibble) (b : Byte) : (s.setReg x b).v = s.v.set x.toNat b x.isLt := rfl
@[simp] theorem setReg_i (x : Nibble) (b : Byte) : (s.setReg x b).i = s.i := rfl
@[simp] theorem setReg_pc (x : Nibble) (b : Byte) : (s.setReg x b).pc = s.pc := rfl
@[simp] theorem setReg_stack (x : Nibble) (b : Byte) : (s.setReg x b).stack = s.stack := rfl
@[simp] theorem setReg_mem (x : Nibble) (b : Byte) : (s.setReg x b).mem = s.mem := rfl
@[simp] theorem setReg_disp (x : Nibble) (b : Byte) : (s.setReg x b).disp = s.disp := rfl
@[simp] theorem setReg_dirty (x : Nibble) (b : Byte) : (s.setReg x b).dirty = s.dirty := rfl
@[simp] theorem setReg_dt (x : Nibble) (b : Byte) : (s.setReg x b).dt = s.dt := rfl
@[simp] theorem setReg_st (x : Nibble) (b : Byte) : (s.setReg x b).st = s.st := rfl
@[simp] theorem setReg_keys (x : Nibble) (b : Byte) : (s.setReg x b).keys = s.keys := rfl
@[simp] theorem setReg_halt (x : Nibble) (b : Byte) : (s.setReg x b).halt = s.halt := rfl
@[simp] theorem setReg_draws (x : Nibble) (b : Byte) : (s.setReg x b).draws = s.draws := rfl

@[simp] theorem setI_v (w : Word) : (s.setI w).v = s.v := rfl
@[simp] theorem setI_i (w : Word) : (s.setI w).i = w := rfl
@[simp] theorem setI_pc (w : Word) : (s.setI w).pc = s.pc := rfl
@[simp] theorem setI_stack (w : Word) : (s.setI w).stack = s.stack := rfl
@[simp] theorem setI_mem (w : Word) : (s.setI w).mem = s.mem := rfl
@[simp] theorem setI_disp (w : Word) : (s.setI w).disp = s.disp := rfl
@[simp] theorem setI_dirty (w : Word) : (s.setI w).dirty = s.dirty := rfl
@[simp] theorem setI_dt (w : Word) : (s.setI w).dt = s.dt := rfl
@[simp] theorem setI_st (w : Word) : (s.setI w).st = s.st := rfl
@[simp] theorem setI_keys (w : Word) : (s.setI w).keys = s.keys := rfl
@[simp] theorem setI_halt (w : Word) : (s.setI w).halt = s.halt := rfl
@[simp] theorem setI_draws (w : Word) : (s.setI w).draws = s.draws := rfl
@[simp] theorem setI_reg (w : Word) (j : Nibble) : (s.setI w).reg j = s.reg j := rfl

@[simp] theorem setPc_v (w : Word) : (s.setPc w).v = s.v := rfl
@[simp] theorem setPc_i (w : Word) : (s.setPc w).i = s.i := rfl
@[simp] theorem setPc_pc (w : Word) : (s.setPc w).pc = w := rfl
@[simp] theorem setPc_stack (w : Word) : (s.setPc w).stack = s.stack := rfl
@[simp] theorem setPc_mem (w : Word) : (s.setPc w).mem = s.mem := rfl
@[simp] theorem setPc_disp (w : Word) : (s.setPc w).disp = s.disp := rfl
@[simp] theorem setPc_dirty (w : Word) : (s.setPc w).dirty = s.dirty := rfl
@[simp] theorem setPc_dt (w : Word) : (s.setPc w).dt = s.dt := rfl
@[simp] theorem setPc_st (w : Word) : (s.setPc w).st = s.st := rfl
@[simp] theorem setPc_keys (w : Word) : (s.setPc w).keys = s.keys := rfl
@[simp] theorem setPc_halt (w : Word) : (s.setPc w).halt = s.halt := rfl
@[simp] theorem setPc_draws (w : Word) : (s.setPc w).draws = s.draws := rfl
@[simp] theorem setPc_reg (w : Word) (j : Nibble) : (s.setPc w).reg j = s.reg j := rfl

@[simp] theorem setStack_v (l : List Word) : (s.setStack l).v = s.v := rfl
@[simp] theorem setStack_i (l : List Word) : (s.setStack l).i = s.i := rfl
@[simp] theorem setStack_pc (l : List Word) : (s.setStack l).pc = s.pc := rfl
@[simp] theorem setStack_stack (l : List Word) : (s.setStack l).stack = l := rfl
@[simp] theorem setStack_mem (l : List Word) : (s.setStack l).mem = s.mem := rfl
@[simp] theorem setStack_disp (l : List Word) : (s.setStack l).disp = s.disp := rfl
@[simp] theorem setStack_dirty (l : List Word) : (s.setStack l).dirty = s.dirty := rfl
@[simp] theorem setStack_dt (l : List Word) : (s.setStack l).dt = s.dt := rfl
@[simp] theorem setStack_st (l : List Word) : (s.setStack l).st = s.st := rfl
@[simp] theorem setStack_keys (l : List Word) : (s.setStack l).keys = s.keys := rfl
@[simp] theorem setStack_halt (l : List Word) : (s.setStack l).halt = s.halt := rfl
@[simp] theorem setStack_draws (l : List Word) : (s.setStack l).draws = s.draws := rfl
@[simp] theorem setStack_reg (l : List Word) (j : Nibble) : (s.setStack l).reg j = s.reg j := rfl

@[simp] theorem setMem_v (m : Memory) : (s.setMem m).v = s.v := rfl
@[simp] theorem setMem_i (m : Memory) : (s.setMem m).i = s.i := rfl
@[simp] theorem setMem_pc (m : Memory) : (s.setMem m).pc = s.pc := rfl
@[simp] theorem setMem_stack (m : Memory) : (s.setMem m).stack = s.stack := rfl
@[simp] theorem setMem_mem (m : Memory) : (s.setMem m).mem = m := rfl
@[simp] theorem setMem_disp (m : Memory) : (s.setMem m).disp = s.disp := rfl
@[simp] theorem setMem_dirty (m : Memory) : (s.setMem m).dirty = s.dirty := rfl
@[simp] theorem setMem_dt (m : Memory) : (s.setMem m).dt = s.dt := rfl
@[simp] theorem setMem_st (m : Memory) : (s.setMem m).st = s.st := rfl
@[simp] theorem setMem_keys (m : Memory) : (s.setMem m).keys = s.keys := rfl
@[simp] theorem setMem_halt (m : Memory) : (s.setMem m).halt = s.halt := rfl
@[simp] theorem setMem_draws (m : Memory) : (s.setMem m).draws = s.draws := rfl
@[simp] theorem setMem_reg (m : Memory) (j : Nibble) : (s.setMem m).reg j = s.reg j := rfl

@[simp] theorem setDisplay_v (d : Display) (b : Bool) : (s.setDisplay d b).v = s.v := rfl
@[simp] theorem setDisplay_i (d : Display) (b : Bool) : (s.setDisplay d b).i = s.i := rfl
@[simp] theorem setDisplay_pc (d : Display) (b : Bool) : (s.setDisplay d b).pc = s.pc := rfl
@[simp] theorem setDisplay_stack (d : Display) (b : Bool) : (s.setDisplay d b).stack = s.stack := rfl
@[simp] theorem setDisplay_mem (d : Display) (b : Bool) : (s.setDisplay d b).mem = s.mem := rfl
@[simp] theorem setDisplay_disp (d : Display) (b : Bool) : (s.setDisplay d b).disp = d := rfl
@[simp] theorem setDisplay_dirty (d : Display) (b : Bool) : (s.setDisplay d b).dirty = b := rfl
@[simp] theorem setDisplay_dt (d : Display) (b : Bool) : (s.setDisplay d b).dt = s.dt := rfl
@[simp] theorem setDisplay_st (d : Display) (b : Bool) : (s.setDisplay d b).st = s.st := rfl
@[simp] theorem setDisplay_keys (d : Display) (b : Bool) : (s.setDisplay d b).keys = s.keys := rfl
@[simp] theorem setDisplay_halt (d : Display) (b : Bool) : (s.setDisplay d b).halt = s.halt := rfl
@[simp] theorem setDisplay_draws (d : Display) (b : Bool) : (s.setDisplay d b).draws = s.draws := rfl
@[simp] theorem setDisplay_reg (d : Display) (b : Bool) (j : Nibble) : (s.setDisplay d b).reg j = s.reg j := rfl

@[simp] theorem setDirty_v (b : Bool) : (s.setDirty b).v = s.v := rfl
@[simp] theorem setDirty_i (b : Bool) : (s.setDirty b).i = s.i := rfl
@[simp] theorem setDirty_pc (b : Bool) : (s.setDirty b).pc = s.pc := rfl
@[simp] theorem setDirty_stack (b : Bool) : (s.setDirty b).stack = s.stack := rfl
@[simp] theorem setDirty_mem (b : Bool) : (s.setDirty b).mem = s.mem := rfl
@[simp] theorem setDirty_disp (b : Bool) : (s.setDirty b).disp = s.disp := rfl
@[simp] theorem setDirty_dirty (b : Bool) : (s.setDirty b).dirty = b := rfl
@[simp] theorem setDirty_dt (b : Bool) : (s.setDirty b).dt = s.dt := rfl
@[simp] theorem setDirty_st (b : Bool) : (s.setDirty b).st = s.st := rfl
@[simp] theorem setDirty_keys (b : Bool) : (s.setDirty b).keys = s.keys := rfl
@[simp] theorem setDirty_halt (b : Bool) : (s.setDirty b).halt = s.halt := rfl
@[simp] theorem setDirty_draws (b : Bool) : (s.setDirty b).draws = s.draws := rfl
@[simp] theorem setDirty_reg (b : Bool) (j : Nibble) : (s.setDirty b).reg j = s.reg j := rfl

@[simp] theorem setDt_v (b : Byte) : (s.setDt b).v = s.v := rfl
@[simp] theorem setDt_i (b : Byte) : (s.setDt b).i = s.i := rfl
@[simp] theorem setDt_pc (b : Byte) : (s.setDt b).pc = s.pc := rfl
@[simp] theorem setDt_stack (b : Byte) : (s.setDt b).stack = s.stack := rfl
@[simp] theorem setDt_mem (b : Byte) : (s.setDt b).mem = s.mem := rfl
@[simp] theorem setDt_disp (b : Byte) : (s.setDt b).disp = s.disp := rfl
@[simp] theorem setDt_dirty (b : Byte) : (s.setDt b).dirty = s.dirty := rfl
@[simp] theorem setDt_dt (b : Byte) : (s.setDt b).dt = b := rfl
@[simp] theorem setDt_st (b : Byte) : (s.setDt b).st = s.st := rfl
@[simp] theorem setDt_keys (b : Byte) : (s.setDt b).keys = s.keys := rfl
@[simp] theorem setDt_halt (b : Byte) : (s.setDt b).halt = s.halt := rfl
@[simp] theorem setDt_draws (b : Byte) : (s.setDt b).draws = s.draws := rfl
@[simp] theorem setDt_reg (b : Byte) (j : Nibble) : (s.setDt b).reg j = s.reg j := rfl

@[simp] theorem setSt_v (b : Byte) : (s.setSt b).v = s.v := rfl
@[simp] theorem setSt_i (b : Byte) : (s.setSt b).i = s.i := rfl
@[simp] theorem setSt_pc (b : Byte) : (s.setSt b).pc = s.pc := rfl
@[simp] theorem setSt_stack (b : Byte) : (s.setSt b).stack = s.stack := rfl
@[simp] theorem setSt_mem (b : Byte) : (s.setSt b).mem = s.mem := rfl
@[simp] theorem setSt_disp (b : Byte) : (s.setSt b).disp = s.disp := rfl
@[simp] theorem setSt_dirty (b : Byte) : (s.setSt b).dirty = s.dirty := rfl
@[simp] theorem setSt_dt (b : Byte) : (s.setSt b).dt = s.dt := rfl
@[simp] theorem setSt_st (b : Byte) : (s.setSt b).st = b := rfl
@[simp] theorem setSt_keys (b : Byte) : (s.setSt b).keys = s.keys := rfl
@[simp] theorem setSt_halt (b : Byte) : (s.setSt b).halt = s.halt := rfl
@[simp] theorem setSt_draws (b : Byte) : (s.setSt b).draws = s.draws := rfl
@[simp] theorem setSt_reg (b : Byte) (j : Nibble) : (s.setSt b).reg j = s.reg j := rfl

@[simp] theorem setKeys_v (k : BitVec 16) : (s.setKeys k).v = s.v := rfl
@[simp] theorem setKeys_i (k : BitVec 16) : (s.setKeys k).i = s.i := rfl
@[simp] theorem setKeys_pc (k : BitVec 16) : (s.setKeys k).pc = s.pc := rfl
@[simp] theorem setKeys_stack (k : BitVec 16) : (s.setKeys k).stack = s.stack := rfl
@[simp] theorem setKeys_mem (k : BitVec 16) : (s.setKeys k).mem = s.mem := rfl
@[simp] theorem setKeys_disp (k : BitVec 16) : (s.setKeys k).disp = s.disp := rfl
@[simp] theorem setKeys_dirty (k : BitVec 16) : (s.setKeys k).dirty = s.dirty := rfl
@[simp] theorem setKeys_dt (k : BitVec 16) : (s.setKeys k).dt = s.dt := rfl
@[simp] theorem setKeys_st (k : BitVec 16) : (s.setKeys k).st = s.st := rfl
@[simp] theorem setKeys_keys (k : BitVec 16) : (s.setKeys k).keys = k := rfl
@[simp] theorem setKeys_halt (k : BitVec 16) : (s.setKeys k).halt = s.halt := rfl
@[simp] theorem setKeys_draws (k : BitVec 16) : (s.setKeys k).draws = s.draws := rfl
@[simp] theorem setKeys_reg (k : BitVec 16) (j : Nibble) : (s.setKeys k).reg j = s.reg j := rfl

@[simp] theorem setHalt_v (h : Option FaultRecord) : (s.setHalt h).v = s.v := rfl
@[simp] theorem setHalt_i (h : Option FaultRecord) : (s.setHalt h).i = s.i := rfl
@[simp] theorem setHalt_pc (h : Option FaultRecord) : (s.setHalt h).pc = s.pc := rfl
@[simp] theorem setHalt_stack (h : Option FaultRecord) : (s.setHalt h).stack = s.stack := rfl
@[simp] theorem setHalt_mem (h : Option FaultRecord) : (s.setHalt h).mem = s.mem := rfl
@[simp] theorem setHalt_disp (h : Option FaultRecord) : (s.setHalt h).disp = s.disp := rfl
@[simp] theorem setHalt_dirty (h : Option FaultRecord) : (s.setHalt h).dirty = s.dirty := rfl
@[simp] theorem setHalt_dt (h : Option FaultRecord) : (s.setHalt h).dt = s.dt := rfl
@[simp] theorem setHalt_st (h : Option FaultRecord) : (s.setHalt h).st = s.st := rfl
@[simp] theorem setHalt_keys (h : Option FaultRecord) : (s.setHalt h).keys = s.keys := rfl
@[simp] theorem setHalt_halt (h : Option FaultRecord) : (s.setHalt h).halt = h := rfl
@[simp] theorem setHalt_draws (h : Option FaultRecord) : (s.setHalt h).draws = s.draws := rfl
@[simp] theorem setHalt_reg (h : Option FaultRecord) (j : Nibble) : (s.setHalt h).reg j = s.reg j := rfl

@[simp] theorem setDraws_v (k : Nat) : (s.setDraws k).v = s.v := rfl
@[simp] theorem setDraws_i (k : Nat) : (s.setDraws k).i = s.i := rfl
@[simp] theorem setDraws_pc (k : Nat) : (s.setDraws k).pc = s.pc := rfl
@[simp] theorem setDraws_stack (k : Nat) : (s.setDraws k).stack = s.stack := rfl
@[simp] theorem setDraws_mem (k : Nat) : (s.setDraws k).mem = s.mem := rfl
@[simp] theorem setDraws_disp (k : Nat) : (s.setDraws k).disp = s.disp := rfl
@[simp] theorem setDraws_dirty (k : Nat) : (s.setDraws k).dirty = s.dirty := rfl
@[simp] theorem setDraws_dt (k : Nat) : (s.setDraws k).dt = s.dt := rfl
@[simp] theorem setDraws_st (k : Nat) : (s.setDraws k).st = s.st := rfl
@[simp] theorem setDraws_keys (k : Nat) : (s.setDraws k).keys = s.keys := rfl
@[simp] theorem setDraws_halt (k : Nat) : (s.setDraws k).halt = s.halt := rfl
@[simp] theorem setDraws_draws (k : Nat) : (s.setDraws k).draws = k := rfl
@[simp] theorem setDraws_reg (k : Nat) (j : Nibble) : (s.setDraws k).reg j = s.reg j := rfl

end Sys2Proof.Machine.State

namespace Sys2Proof.Machine

/-! The elements with a count beside them, and the parameters at their defaults. -/

@[simp] theorem Elements.withDraws_toElements (e : Elements) (k : Nat) : (e.withDraws k).toElements = e := rfl
@[simp] theorem Elements.withDraws_draws (e : Elements) (k : Nat) : (e.withDraws k).draws = k := rfl
@[simp] theorem State.toElements_withDraws (s : State) (k : Nat) : s.toElements.withDraws k = s.setDraws k := rfl
@[simp] theorem params_fontBase : Config.params.fontBase = Config.fontBase := rfl
@[simp] theorem params_fontData : Config.params.fontData = Config.fontData := rfl
@[simp] theorem params_stackDepth : Config.params.stackDepth = Config.stackDepth := rfl

end Sys2Proof.Machine
end

