-- ==== Sys2Proof/Laws/Memory.lean ====
section
/-! SUPPORT. Memory: read after write, the canonical form kept by every operation, and its uniqueness. -/
namespace Sys2Proof.Machine.Memory

/-- The canonical form in parts: keys strictly rising, and every entry in range and not the reset contents. -/
theorem wf_iff (m : Memory) : m.wf = true ↔
    m.Pairwise (fun c d => c.1 < d.1) ∧ ∀ c ∈ m, c.1 < Config.memSize ∧ c.2 ≠ background c.1 := by
  simp [wf]

theorem wf_nil : wf [] = true := by simp [wf]

theorem wf_tail {c : Host.Cell} {m : Memory} (h : wf (c :: m) = true) : m.wf = true := by
  rw [wf_iff] at *
  exact ⟨(List.pairwise_cons.1 h.1).2, fun d hd => h.2 d (List.mem_cons_of_mem _ hd)⟩

theorem wf_head_lt {c : Host.Cell} {m : Memory} (h : wf (c :: m) = true) : ∀ d ∈ m, c.1 < d.1 :=
  (List.pairwise_cons.1 ((wf_iff _).1 h).1).1

theorem lookup_of_lt {m : Memory} {a : Nat} (h : ∀ d ∈ m, a < d.1) : m.lookup a = none := by
  induction m with
  | nil => rfl
  | cons c m ih =>
    have := h c (List.mem_cons_self ..)
    rw [lookup, if_neg (by omega)]
    exact ih fun d hd => h d (List.mem_cons_of_mem _ hd)

theorem lookup_insert (m : Memory) (a c : Nat) (b : Byte) :
    (m.insert a b).lookup c = if c = a then some b else m.lookup c := by
  induction m with
  | nil => simp [insert, lookup]
  | cons e m ih =>
    obtain ⟨k, d⟩ := e
    simp only [insert]
    split_ifs with h1 h2 <;> simp only [lookup, ih] <;> grind

theorem lookup_erase {m : Memory} (h : m.wf = true) (a c : Nat) :
    (m.erase a).lookup c = if c = a then none else m.lookup c := by
  induction m with
  | nil => simp [erase, lookup]
  | cons e m ih =>
    obtain ⟨k, d⟩ := e
    have hm := ih (wf_tail h)
    simp only [erase]
    by_cases hk : a = k
    · subst hk
      have := lookup_of_lt (wf_head_lt h)
      by_cases hc : c = a <;> simp_all [lookup]
    · rw [if_neg hk]
      simp only [lookup, hm]
      grind

/-- R59: a cell read after a write to memory. -/
theorem read_write {m : Memory} (h : m.wf = true) (a c : Nat) (b : Byte) :
    (m.write a b).read c = if c = a then b else m.read c := by
  unfold read write
  split_ifs with hb hc hc
  · simp [lookup_erase h, hc, hb]
  · simp [lookup_erase h, hc]
  · simp [lookup_insert, hc]
  · simp [lookup_insert, hc]

theorem mem_insert {m : Memory} {a : Nat} {b : Byte} {c : Host.Cell} (h : c ∈ m.insert a b) :
    c = (a, b) ∨ c ∈ m := by
  induction m with
  | nil => simpa [insert] using h
  | cons e m ih =>
    obtain ⟨k, d⟩ := e
    simp only [insert] at h
    split_ifs at h <;> simp only [List.mem_cons] at h ⊢ <;> grind

theorem mem_erase {m : Memory} {a : Nat} {c : Host.Cell} (h : c ∈ m.erase a) : c ∈ m := by
  induction m with
  | nil => simp [erase] at h
  | cons e m ih =>
    obtain ⟨k, d⟩ := e
    simp only [erase] at h
    split_ifs at h <;> simp only [List.mem_cons] at h ⊢ <;> grind

theorem wf_insert {m : Memory} (h : m.wf = true) {a : Nat} {b : Byte} (ha : a < Config.memSize)
    (hb : b ≠ background a) : (m.insert a b).wf = true := by
  rw [wf_iff]
  refine ⟨?_, fun c hc => ?_⟩
  · induction m with
    | nil => simp [insert]
    | cons e m ih =>
      obtain ⟨k, d⟩ := e
      have hlt := wf_head_lt h
      have hp := ((wf_iff _).1 h).1
      simp only [insert]
      split_ifs with h1 h2
      · refine List.pairwise_cons.2 ⟨fun c hc => ?_, hp⟩
        rcases List.mem_cons.1 hc with rfl | hc
        · exact h1
        · exact Nat.lt_trans h1 (hlt c hc)
      · subst h2
        exact List.pairwise_cons.2 ⟨hlt, (List.pairwise_cons.1 hp).2⟩
      · refine List.pairwise_cons.2 ⟨fun c hc => ?_, ih (wf_tail h)⟩
        rcases mem_insert hc with rfl | hc
        · exact (by omega : k < a)
        · exact hlt c hc
  · rcases mem_insert hc with rfl | hc
    · exact ⟨ha, hb⟩
    · exact ((wf_iff _).1 h).2 c hc

theorem wf_erase {m : Memory} (h : m.wf = true) (a : Nat) : (m.erase a).wf = true := by
  rw [wf_iff]
  refine ⟨?_, fun c hc => ((wf_iff _).1 h).2 c (mem_erase hc)⟩
  induction m with
  | nil => simp [erase]
  | cons e m ih =>
    obtain ⟨k, d⟩ := e
    have hp := List.pairwise_cons.1 ((wf_iff _).1 h).1
    simp only [erase]
    split_ifs
    · exact hp.2
    · exact List.pairwise_cons.2 ⟨fun c hc => hp.1 c (mem_erase hc), ih (wf_tail h)⟩

/-- A write to an existing cell keeps the canonical form. -/
theorem wf_write {m : Memory} (h : m.wf = true) {a : Nat} (ha : a < Config.memSize) (b : Byte) :
    (m.write a b).wf = true := by
  unfold write
  split_ifs with hb
  · exact wf_erase h a
  · exact wf_insert h ha hb

/-- A run of writes within memory keeps the canonical form. -/
theorem wf_writeList (bs : List Byte) : ∀ {m : Memory} {a : Nat}, m.wf = true →
    a + bs.length ≤ Config.memSize → (m.writeList a bs).wf = true := by
  induction bs with
  | nil => intro m a h _; exact h
  | cons b bs ih =>
    intro m a h ha
    simp only [List.length_cons] at ha
    exact ih (wf_write h (by omega) b) (by omega)

/-- R53: a cell read after a run of writes within memory. -/
theorem read_writeList (bs : List Byte) : ∀ {m : Memory} {a : Nat}, m.wf = true →
    a + bs.length ≤ Config.memSize → ∀ c, (m.writeList a bs).read c =
      if a ≤ c ∧ c < a + bs.length then bs.getD (c - a) 0 else m.read c := by
  induction bs with
  | nil => intro m a _ _ c; simp [writeList]
  | cons b bs ih =>
    intro m a h ha c
    simp only [List.length_cons] at ha
    rw [writeList, ih (wf_write h (by omega) b) (by omega), read_write h]
    by_cases hc : c = a
    · subst hc
      simp
    · by_cases hin : a + 1 ≤ c ∧ c < a + 1 + bs.length
      · rw [if_pos hin, if_pos (by simp; omega)]
        obtain ⟨d, hd⟩ : ∃ d, c - a = d + 1 := ⟨c - (a + 1), by omega⟩
        rw [hd, show c - (a + 1) = d by omega]
        simp
      · rw [if_neg hin, if_neg hc, if_neg (by simp; omega)]

@[simp] theorem readList_length (m : Memory) (n : Nat) : ∀ a, (m.readList a n).length = n := by
  induction n with
  | zero => intro a; rfl
  | succ n ih => intro a; simp [readList, ih]

/-- R52: the `k`-th byte of a range is the cell `k` above its start. -/
theorem readList_getElem? (m : Memory) (n : Nat) : ∀ (a k : Nat), k < n → (m.readList a n)[k]? = some (m.read (a + k)) := by
  induction n with
  | zero => intro a k h; omega
  | succ n ih =>
    intro a k h
    cases k with
    | zero => simp [readList]
    | succ k => simp only [readList, List.getElem?_cons_succ]; rw [ih _ _ (by omega)]; congr 2; omega

/-- Equal entries are equal data. -/
theorem eq_of_lookup_eq : ∀ {m m' : Memory}, m.wf = true → m'.wf = true → (∀ a, m.lookup a = m'.lookup a) → m = m'
  | [], [], _, _, _ => rfl
  | [], (k, b) :: m', _, _, h => by simpa [lookup] using h k
  | (k, b) :: m, [], _, _, h => by simpa [lookup] using h k
  | (k, b) :: m, (k', b') :: m', hw, hw', h => by
    have h1 := wf_head_lt hw
    have h2 := wf_head_lt hw'
    have e : k = k' := by
      rcases Nat.lt_trichotomy k k' with lt | e | lt
      · have := h k
        rw [lookup_of_lt (m := (k', b') :: m') (by
          intro d hd
          rcases List.mem_cons.1 hd with rfl | hd
          · exact lt
          · exact Nat.lt_trans lt (h2 d hd))] at this
        simp [lookup] at this
      · exact e
      · have := h k'
        rw [lookup_of_lt (m := (k, b) :: m) (by
          intro d hd
          rcases List.mem_cons.1 hd with rfl | hd
          · exact lt
          · exact Nat.lt_trans lt (h1 d hd))] at this
        simp [lookup] at this
    subst e
    have eb : b = b' := by simpa [lookup] using h k
    subst eb
    have : m = m' := eq_of_lookup_eq (wf_tail hw) (wf_tail hw') fun a => by
      by_cases ha : a = k
      · subst ha; rw [lookup_of_lt h1, lookup_of_lt h2]
      · simpa [lookup, ha] using h a
    rw [this]

theorem lookup_ne_background {m : Memory} (h : m.wf = true) {a : Nat} {b : Byte} (hl : m.lookup a = some b) :
    b ≠ background a := by
  induction m with
  | nil => simp [lookup] at hl
  | cons e m ih =>
    obtain ⟨k, d⟩ := e
    simp only [lookup] at hl
    split_ifs at hl with hk
    · have := ((wf_iff _).1 h).2 (k, d) (List.mem_cons_self ..)
      simp_all
    · exact ih (wf_tail h) hl

/-- In canonical form a byte read says whether it is listed. -/
theorem lookup_eq {m : Memory} (h : m.wf = true) (a : Nat) :
    m.lookup a = if m.read a = background a then none else some (m.read a) := by
  cases hl : m.lookup a with
  | none => simp [read, hl]
  | some b => simp [read, hl, lookup_ne_background h hl]

end Sys2Proof.Machine.Memory
end

