-- ==== Sys2Proof/Laws/Registers.lean ====
section
/-! SUPPORT. Reading a register after the register operations. -/
namespace Sys2Proof.Machine

theorem reg_setReg (s : State) (x k : Nibble) (b : Byte) :
    (s.setReg x b).reg k = if k = x then b else s.reg k := by
  simp only [Elements.reg, State.setReg, Vector.getElem_set]
  by_cases h : k = x
  · simp [h]
  · have : x.toNat ≠ k.toNat := fun e => h (BitVec.eq_of_toNat_eq e.symm)
    simp [h, this]

@[simp] theorem reg_setReg_same (s : State) (x : Nibble) (b : Byte) : (s.setReg x b).reg x = b := by
  simp [reg_setReg]

theorem reg_setReg_ne (s : State) (x k : Nibble) (b : Byte) (h : k ≠ x) : (s.setReg x b).reg k = s.reg k := by
  simp [reg_setReg, h]

/-- Two states with the same registers have the same register vector. -/
theorem v_eq_of_reg_eq (s t : State) (h : ∀ k, s.reg k = t.reg k) : s.v = t.v := by
  apply Vector.ext
  intro k hk
  have := h (BitVec.ofNat 4 k)
  simpa [Elements.reg, Nat.mod_eq_of_lt hk] using this

theorem reg_resultThenFlag (s : State) (x k : Nibble) (r f : Byte) :
    (resultThenFlag s x r f).reg k = if k = vf then f else if k = x then r else s.reg k := by
  simp [resultThenFlag, reg_setReg]

theorem reg_flagThenShift (s : State) (x k : Nibble) (f : Byte) (sh : Byte → Byte) :
    (flagThenShift s x f sh).reg k =
      if k = x then sh (if x = vf then f else s.reg x) else if k = vf then f else s.reg k := by
  simp [flagThenShift, reg_setReg]

/-- R124: the `k`-th byte of `[V[0], ..., V[x]]` is `V[k]`. -/
theorem regsUpTo_getElem? (s : State) (x k : Nibble) (h : k.toNat ≤ x.toNat) :
    (regsUpTo s x)[k.toNat]? = some (s.reg k) := by
  have hk := k.isLt
  rw [regsUpTo, List.getElem?_take, if_pos (by omega), Elements.reg, Vector.getElem?_toList]
  exact Vector.getElem?_eq_getElem k.isLt

theorem regsUpTo_getD (s : State) (x k : Nibble) (h : k.toNat ≤ x.toNat) :
    (regsUpTo s x).getD k.toNat 0 = s.reg k := by
  rw [List.getD_eq_getElem?_getD, regsUpTo_getElem? s x k h, Option.getD_some]

@[simp] theorem regsUpTo_length (s : State) (x : Nibble) : (regsUpTo s x).length = x.toNat + 1 := by
  have := x.isLt
  simp [regsUpTo]
  omega

/-- R125: register `k` after a run of bytes was written to registers `j`, `j + 1`, .... -/
theorem reg_setRegs (bs : List Byte) : ∀ (s : State) (j : Nat) (k : Nibble), j + bs.length ≤ 16 →
    (setRegs s j bs).reg k =
      if j ≤ k.toNat ∧ k.toNat < j + bs.length then bs.getD (k.toNat - j) 0 else s.reg k := by
  induction bs with
  | nil => intro s j k _; simp [setRegs]
  | cons b bs ih =>
    intro s j k h
    simp only [List.length_cons] at h
    rw [setRegs, ih _ _ _ (by omega), reg_setReg]
    have hj : (BitVec.ofNat 4 j).toNat = j := by simp; omega
    by_cases e : k = BitVec.ofNat 4 j
    · simp [e, hj]
    · have : k.toNat ≠ j := fun c => e (BitVec.eq_of_toNat_eq (by rw [hj, c]))
      by_cases hin : j + 1 ≤ k.toNat ∧ k.toNat < j + 1 + bs.length
      · rw [if_pos hin, if_pos (by simp; omega)]
        obtain ⟨d, hd⟩ : ∃ d, k.toNat - j = d + 1 := ⟨k.toNat - (j + 1), by omega⟩
        rw [hd, show k.toNat - (j + 1) = d by omega]
        simp
      · rw [if_neg hin, if_neg e, if_neg (by simp; omega)]

/-- Writing registers changes nothing but registers. -/
theorem setRegs_frame (bs : List Byte) : ∀ (s : State) (j : Nat),
    setRegs s j bs = { s with v := (setRegs s j bs).v } := by
  induction bs with
  | nil => intro s j; rfl
  | cons b bs ih => intro s j; rw [setRegs, ih]; rfl

end Sys2Proof.Machine
end

