-- ==== Sys2Proof/Laws/Ops.lean ====
section
/-! SUPPORT. One lemma per shared operation that says what it can do, and the fields each one leaves. -/
namespace Sys2Proof.Machine

theorem inBounds_iff (a n : Nat) : inBounds a n = true ↔ a + n ≤ 4096 := by
  rw [inBounds]
  exact decide_eq_true_iff

/-- R52: what a range read answers. -/
theorem memRead_eq (s : State) (a n : Nat) :
    memRead s a n = if a + n ≤ 4096 then some (s.mem.readList a n) else none := by
  simp only [memRead, inBounds_iff]

/-- R53: what a range write answers. -/
theorem memWrite_eq (s : State) (a : Nat) (bs : List Byte) :
    memWrite s a bs = if a + bs.length ≤ 4096 then some (s.setMem (s.mem.writeList a bs)) else none := by
  simp only [memWrite, inBounds_iff]

/-- R55: what a fetch answers. -/
theorem fetchWord_eq (s : State) (a : Word) :
    fetchWord s a = if a.toNat + 2 ≤ 4096 then some (wordAt s a) else none := by
  simp only [fetchWord, memRead_eq]
  split_ifs <;> rfl

/-- R27: what a push answers. -/
theorem push_eq (c : Option Nat) (s : State) (w : Word) :
    push c s w = if c = some s.stack.length then none else some (s.setStack (w :: s.stack)) := by
  cases c with
  | none => rfl
  | some d =>
    by_cases h : s.stack.length = d
    · subst h
      simp [push, stackFull]
    · simp [push, stackFull, h, Ne.symm h]

theorem pop_nil {s : State} (h : s.stack = []) : pop s = none := by simp [pop, h]

theorem pop_cons {s : State} {w : Word} {ws : List Word} (h : s.stack = w :: ws) :
    pop s = some (w, s.setStack ws) := by simp [pop, h]

theorem fetchedWord_eq (s : State) : s.fetchedWord = wordAt s (s.pc - 2) := rfl

/-! ## Fields of the composed operations -/

section Fields
variable (s : State)

@[simp] theorem advance_pc : (advance s).pc = s.pc + 2 := rfl
@[simp] theorem advance_i : (advance s).i = s.i := rfl
@[simp] theorem advance_stack : (advance s).stack = s.stack := rfl
@[simp] theorem advance_mem : (advance s).mem = s.mem := rfl
@[simp] theorem advance_disp : (advance s).disp = s.disp := rfl
@[simp] theorem advance_dirty : (advance s).dirty = s.dirty := rfl
@[simp] theorem advance_dt : (advance s).dt = s.dt := rfl
@[simp] theorem advance_st : (advance s).st = s.st := rfl
@[simp] theorem advance_keys : (advance s).keys = s.keys := rfl
@[simp] theorem advance_halt : (advance s).halt = s.halt := rfl
@[simp] theorem advance_draws : (advance s).draws = s.draws := rfl
@[simp] theorem advance_reg (k : Nibble) : (advance s).reg k = s.reg k := rfl

@[simp] theorem tick_pc : (tick s).pc = s.pc := rfl
@[simp] theorem tick_i : (tick s).i = s.i := rfl
@[simp] theorem tick_stack : (tick s).stack = s.stack := rfl
@[simp] theorem tick_mem : (tick s).mem = s.mem := rfl
@[simp] theorem tick_disp : (tick s).disp = s.disp := rfl
@[simp] theorem tick_dirty : (tick s).dirty = s.dirty := rfl
@[simp] theorem tick_dt : (tick s).dt = tickByte s.dt := rfl
@[simp] theorem tick_st : (tick s).st = tickByte s.st := rfl
@[simp] theorem tick_keys : (tick s).keys = s.keys := rfl
@[simp] theorem tick_halt : (tick s).halt = s.halt := rfl
@[simp] theorem tick_draws : (tick s).draws = s.draws := rfl
@[simp] theorem tick_reg (k : Nibble) : (tick s).reg k = s.reg k := rfl
@[simp] theorem tick_wordAt (a : Word) : wordAt (tick s) a = wordAt s a := rfl

variable (k : Fault)

@[simp] theorem raise_pc : (raise s k).pc = s.pc := rfl
@[simp] theorem raise_i : (raise s k).i = s.i := rfl
@[simp] theorem raise_stack : (raise s k).stack = s.stack := rfl
@[simp] theorem raise_mem : (raise s k).mem = s.mem := rfl
@[simp] theorem raise_disp : (raise s k).disp = s.disp := rfl
@[simp] theorem raise_dirty : (raise s k).dirty = s.dirty := rfl
@[simp] theorem raise_dt : (raise s k).dt = s.dt := rfl
@[simp] theorem raise_st : (raise s k).st = s.st := rfl
@[simp] theorem raise_keys : (raise s k).keys = s.keys := rfl
@[simp] theorem raise_draws : (raise s k).draws = s.draws := rfl
@[simp] theorem raise_reg (j : Nibble) : (raise s k).reg j = s.reg j := rfl
@[simp] theorem raise_halt : (raise s k).halt = some ⟨k, s.pc - 2, wordAt s (s.pc - 2)⟩ := rfl

end Fields

/-- R34: the timer step on values. -/
theorem tickByte_toNat (b : Byte) : (tickByte b).toNat = b.toNat - 1 := by
  unfold tickByte
  split_ifs with h
  · simp [h]
  · rw [BitVec.toNat_sub_of_le]
    · rfl
    · exact BitVec.le_def.2 (Nat.one_le_iff_ne_zero.2 fun e => h (BitVec.eq_of_toNat_eq e))

/-- R157: what a skip leaves. -/
theorem skipIf_eq (p : Bool) (s : State) : skipIf p s = s.setPc (if p then s.pc + 2 else s.pc) := by
  cases p <;> rfl

/-! ## Frames -/

theorem onlyChanges_refl (cs : List Component) (s : State) : OnlyChanges cs s s := by
  intro c _
  cases c <;> simp [Unchanged]

/-- A frame is the conjunction of what each unlisted component does. -/
theorem onlyChanges_of {cs : List Component} {s t : State}
    (v : .v ∈ cs ∨ ∀ k, t.reg k = s.reg k) (i : .i ∈ cs ∨ t.i = s.i) (pc : .pc ∈ cs ∨ t.pc = s.pc)
    (stack : .stack ∈ cs ∨ t.stack = s.stack) (mem : .mem ∈ cs ∨ ∀ a, t.mem.read a = s.mem.read a)
    (disp : .disp ∈ cs ∨ ∀ r c, t.disp.pixel r c = s.disp.pixel r c) (dirty : .dirty ∈ cs ∨ t.dirty = s.dirty)
    (dt : .dt ∈ cs ∨ t.dt = s.dt) (st : .st ∈ cs ∨ t.st = s.st) (keys : .keys ∈ cs ∨ t.keys = s.keys)
    (halt : .halt ∈ cs ∨ t.halt = s.halt) (draws : .draws ∈ cs ∨ t.draws = s.draws) : OnlyChanges cs s t := by
  intro c hc
  cases c
  case v => exact v.resolve_left hc
  case i => exact i.resolve_left hc
  case pc => exact pc.resolve_left hc
  case stack => exact stack.resolve_left hc
  case mem => exact mem.resolve_left hc
  case disp => exact disp.resolve_left hc
  case dirty => exact dirty.resolve_left hc
  case dt => exact dt.resolve_left hc
  case st => exact st.resolve_left hc
  case keys => exact keys.resolve_left hc
  case halt => exact halt.resolve_left hc
  case draws => exact draws.resolve_left hc

theorem onlyChanges_trans {cs : List Component} {s t u : State} (h : OnlyChanges cs s t) (h' : OnlyChanges cs t u) :
    OnlyChanges cs s u := by
  intro c hc
  have a := h c hc
  have b := h' c hc
  cases c with
  | v => exact fun k => (b k).trans (a k)
  | mem => exact fun k => (b k).trans (a k)
  | disp => exact fun row col => (b row col).trans (a row col)
  | _ => exact b.trans a

/-- The same for the block's eleven elements. -/
theorem onlyElementsChange_of {cs : List Component} {e f : Elements}
    (v : .v ∈ cs ∨ f.v = e.v) (i : .i ∈ cs ∨ f.i = e.i) (pc : .pc ∈ cs ∨ f.pc = e.pc)
    (stack : .stack ∈ cs ∨ f.stack = e.stack) (mem : .mem ∈ cs ∨ f.mem = e.mem) (disp : .disp ∈ cs ∨ f.disp = e.disp)
    (dirty : .dirty ∈ cs ∨ f.dirty = e.dirty) (dt : .dt ∈ cs ∨ f.dt = e.dt) (st : .st ∈ cs ∨ f.st = e.st)
    (keys : .keys ∈ cs ∨ f.keys = e.keys) (halt : .halt ∈ cs ∨ f.halt = e.halt) : OnlyElementsChange cs e f :=
  onlyChanges_of (v.imp_right fun h k => congrArg (fun r : Vector Byte 16 => r[k.toNat]'k.isLt) h) i pc stack
    (mem.imp_right fun h a => congrArg (fun m : Memory => m.read a) h)
    (disp.imp_right fun h r c => congrArg (fun d : Display => d.pixel r c) h) dirty dt st keys halt (.inr rfl)

theorem onlyElementsChange_refl (cs : List Component) (e : Elements) : OnlyElementsChange cs e e :=
  onlyChanges_refl cs (e.withDraws 0)

theorem onlyElementsChange_trans {cs : List Component} {e f g : Elements} (h : OnlyElementsChange cs e f)
    (h' : OnlyElementsChange cs f g) : OnlyElementsChange cs e g := onlyChanges_trans h h'

/-- R174: taking a fault in step 4 is what the rule says. -/
theorem raise_raises (s : State) (k : Fault) : Raises k s (raise s k) := by
  refine ⟨rfl, ?_⟩
  apply onlyChanges_of <;> simp

/-- What a store at `I` leaves outside memory, when it fits. -/
theorem storeAtI_fits {s : State} {bs : List Byte} (h : s.i.toNat + bs.length ≤ 4096) :
    storeAtI bs s = s.setMem (s.mem.writeList s.i.toNat bs) := by
  simp [storeAtI, memWrite_eq, effAddr, h]

/-- R53, R174: a store at `I` that does not fit is a BoundsViolation and writes nothing. -/
theorem storeAtI_faults {s : State} {bs : List Byte} (h : 4096 < s.i.toNat + bs.length) :
    storeAtI bs s = raise s .boundsViolation := by
  simp [storeAtI, memWrite_eq, effAddr, show ¬ s.i.toNat + bs.length ≤ 4096 by omega]

/-- R32: the lowest pressed key. -/
theorem anyPressed_spec (s : State) :
    (s.keys = 0 ∧ anyPressed s = none) ∨
    (s.keys ≠ 0 ∧ ∃ k, k < 16 ∧ anyPressed s = some k ∧ s.keys.getLsbD k = true ∧
      ∀ j, j < k → s.keys.getLsbD j = false) := by
  by_cases h : s.keys = 0
  · exact .inl ⟨h, by simp [anyPressed, h]⟩
  · refine .inr ⟨h, ?_⟩
    rw [anyPressed, if_neg h]
    cases hf : (List.range 16).find? fun k => s.keys.getLsbD k with
    | none =>
      exfalso
      apply h
      apply BitVec.eq_of_getLsbD_eq
      intro k hk
      have := List.find?_eq_none.1 hf k (List.mem_range.2 hk)
      simpa using this
    | some k =>
      have hk := List.mem_range.1 (List.mem_of_find?_eq_some hf)
      refine ⟨k, hk, rfl, by simpa using List.find?_some hf, fun j hj => ?_⟩
      have hp := (List.find?_eq_some_iff_append.1 hf).2
      obtain ⟨as, bs, e, hall⟩ := hp
      have hlen : as.length = k := by
        have h1 : (List.range 16)[as.length]? = some k := by rw [e]; simp
        rw [List.getElem?_range] at h1
        · simpa using h1
        · have := congrArg List.length e
          simp at this
          omega
      have hmem : j ∈ as := by
        have h1 : (List.range 16)[j]? = some j := List.getElem?_range (by omega)
        rw [e, List.getElem?_append_left (by omega)] at h1
        exact List.mem_of_getElem? h1
      simpa using hall j hmem

end Sys2Proof.Machine
end

