-- ==== Sys2Proof/Laws/Canonical.lean ====
section
/-! SUPPORT. Memory's canonical form: reset memory has it, and every operation that writes memory keeps it. -/
namespace Sys2Proof.Machine

theorem reset_mem_wf : State.reset.mem.wf = true := Memory.wf_nil

/-- R53: a MemWrite that answers keeps the canonical form. -/
theorem memWrite_wf {s t : State} {a : Nat} {bs : List Byte} (h : s.mem.wf = true) (hw : memWrite s a bs = some t) :
    t.mem.wf = true := by
  rw [memWrite_eq] at hw
  split_ifs at hw with hb
  cases hw
  exact Memory.wf_writeList bs h hb

/-- R123, R124: a store at `I` keeps the canonical form, whether it fits or faults. -/
theorem storeAtI_wf {s : State} (h : s.mem.wf = true) (bs : List Byte) : (storeAtI bs s).mem.wf = true := by
  rcases Nat.lt_or_ge 4096 (s.i.toNat + bs.length) with hb | hb
  · rwa [storeAtI_faults hb, raise_mem]
  · rw [storeAtI_fits hb]
    exact Memory.wf_writeList bs h hb

theorem placeBytes_wf {s : State} {a : Nat} {bs : List Byte} (h : s.mem.wf = true) (hb : a + bs.length ≤ 4096) :
    (placeBytes s a bs).mem.wf = true := Memory.wf_writeList bs h hb

theorem fetchable_mem (s : State) : (fetchable s).mem = s.mem := by
  unfold fetchable
  dsimp only
  split <;> rfl

/-- What `fetchable` is for: the two bytes at its `pc` lie in memory. -/
theorem fetchable_pc (s : State) : (fetchable s).pc.toNat + 2 ≤ 4096 := by
  unfold fetchable
  dsimp only
  split
  · exact (inBounds_iff _ _).1 ‹_›
  · simp [Config.programStart]

/-- An instruction placed for the next fetch keeps the canonical form. -/
theorem withFetchWord_wf {s : State} (h : s.mem.wf = true) (nbits w : Nat) : (s.withFetchWord nbits w).mem.wf = true :=
  placeBytes_wf (by rwa [fetchable_mem]) (fetchable_pc s)

theorem paramsOk_iff (P : Config.Params) :
    paramsOk P = true ↔ P.fontBase + 80 ≤ 512 ∧ P.fontData.length = 80 := by
  rw [paramsOk, fontOk, Bool.and_eq_true, decide_eq_true_iff, beq_iff_eq]
  rfl

/-- At the default parameters Reset lists nothing. -/
theorem resetMemory_params : resetMemory Config.params = [] := by decide +kernel

/-- R201: memory after Reset is in canonical form. -/
theorem resetMemory_wf {P : Config.Params} (h : paramsOk P = true) : (resetMemory P).wf = true := by
  obtain ⟨h1, h2⟩ := (paramsOk_iff P).1 h
  refine Memory.wf_writeList _ (Memory.wf_writeList _ Memory.wf_nil ?_) ?_
  · rw [List.length_replicate]; decide
  · rw [h2]; exact Nat.le_trans h1 (by decide)

/-- R201: what memory after Reset reads as. -/
theorem read_resetMemory {P : Config.Params} (h : paramsOk P = true) (a : Nat) : (resetMemory P).read a =
    if P.fontBase ≤ a ∧ a < P.fontBase + 80 then P.fontData.getD (a - P.fontBase) 0 else 0 := by
  obtain ⟨h1, h2⟩ := (paramsOk_iff P).1 h
  have hb : Config.fontBase + (List.replicate Config.fontBytes (0 : Byte)).length ≤ Config.memSize := by
    rw [List.length_replicate]; decide
  rw [resetMemory, Memory.read_writeList _ (Memory.wf_writeList _ Memory.wf_nil hb)
    (by rw [h2]; exact Nat.le_trans h1 (by decide)), h2]
  refine if_congr Iff.rfl rfl ?_
  rw [Memory.read_writeList _ Memory.wf_nil hb, List.length_replicate]
  by_cases hin : Config.fontBase ≤ a ∧ a < Config.fontBase + Config.fontBytes
  · rw [if_pos hin, List.getD_replicate 0 (by omega)]
  · rw [if_neg hin]
    exact if_neg hin

/-- R202: Load keeps the canonical form. -/
theorem loadEvent_wf {P : Config.Params} {img : List Byte} {e : Elements} (hP : paramsOk P = true)
    (h : e.mem.wf = true) (hi : imageOk img = true) : (loadEvent P img e).mem.wf = true := by
  obtain ⟨h1, h2⟩ := (paramsOk_iff P).1 hP
  have hi : img.length ≤ 3584 := of_decide_eq_true hi
  refine Memory.wf_writeList _ (Memory.wf_writeList _ h ?_) ?_
  · rw [h2]; exact Nat.le_trans h1 (by decide)
  · simp only [Config.programStart, Config.memSize]; omega

end Sys2Proof.Machine
end

