-- ==== Sys2Proof/Laws/Display.lean ====
section
/-! SUPPORT. The loops of DRW said without loops: which pixels toggle, when a collision is seen, when dirty is set. -/
namespace Sys2Proof.Machine

/-- Displays with the same pixels are equal. -/
theorem display_ext {d e : Display} (h : ∀ r c, d.pixel r c = e.pixel r c) : d = e := by
  apply Vector.ext
  intro r hr
  apply Vector.ext
  intro c hc
  simpa [Display.pixel, hr, hc] using h r c

@[simp] theorem pixel_blank (r c : Nat) : Display.blank.pixel r c = false := by
  simp [Display.pixel, Display.blank]

theorem pixel_offscreen (d : Display) {r c : Nat} (h : ¬(r < 32 ∧ c < 64)) : d.pixel r c = false := by
  simp only [Display.pixel, h, dite_false]

theorem pixel_toggle (d : Display) (r c r' c' : Nat) (h : r < 32 ∧ c < 64) :
    (d.toggle r c).pixel r' c' = ((d.pixel r' c') ^^ (decide (r' = r) && decide (c' = c))) := by
  simp only [Display.toggle, h, Display.pixel]
  by_cases h' : r' < 32 ∧ c' < 64
  · simp only [h']
    by_cases hr : r = r'
    · subst hr
      by_cases hc : c = c'
      · subst hc
        simp
      · simp [hc, Ne.symm hc]
    · simp [hr, Ne.symm hr]
  · have : ¬(r' = r ∧ c' = c) := by rintro ⟨rfl, rfl⟩; exact h' h
    simp only [h', dite_false]
    by_cases hr : r' = r <;> by_cases hc : c' = c <;> simp_all

/-- The sprite byte `b` at column `px` has a set bit at column `c`. -/
def rowSet (b : Byte) (px c : Nat) : Bool :=
  decide (px ≤ c) && decide (c < px + 8) && b.getLsbD (7 - (c - px))

/-- The sprite `bs` with its corner at `(py, px)` has a set bit at `(r, c)`. -/
def rowsSet (bs : List Byte) (py px r c : Nat) : Bool :=
  decide (py ≤ r) && decide (r < py + bs.length) && rowSet (bs.getD (r - py) 0) px c

/-- What one canvas becomes another by toggling the on-screen positions of a set `f`. -/
structure Toggles (f : Nat → Nat → Bool) (a b : Canvas) : Prop where
  pixel : ∀ r c, b.disp.pixel r c = (a.disp.pixel r c ^^ (f r c && decide (r < 32) && decide (c < 64)))
  collision : b.collision = true ↔ a.collision = true ∨ ∃ r c, f r c = true ∧ a.disp.pixel r c = true
  dirty : b.dirty = true ↔ a.dirty = true ∨ ∃ r c, r < 32 ∧ c < 64 ∧ f r c = true

theorem toggles_none (a : Canvas) : Toggles (fun _ _ => false) a a := ⟨by simp, by simp, by simp⟩

/-- Toggling disjoint sets in turn toggles their union. -/
theorem toggles_trans {f g : Nat → Nat → Bool} {a b c : Canvas} (h1 : Toggles f a b) (h2 : Toggles g b c)
    (hd : ∀ r k, f r k = true → g r k = false) : Toggles (fun r k => f r k || g r k) a c := by
  refine ⟨fun r k => ?_, ?_, ?_⟩
  · rw [h2.pixel, h1.pixel]
    cases hf : f r k with
    | false => simp
    | true => simp [hd r k hf]
  · rw [h2.collision, h1.collision]
    constructor
    · rintro ((h | ⟨r, k, h, h'⟩) | ⟨r, k, h, h'⟩)
      · exact .inl h
      · exact .inr ⟨r, k, by simp [h], h'⟩
      · have hf : f r k = false := by
          cases hf : f r k with
          | false => rfl
          | true => rw [hd r k hf] at h; cases h
        refine .inr ⟨r, k, by simp [h], ?_⟩
        simpa [h1.pixel, hf] using h'
    · rintro (h | ⟨r, k, h, h'⟩)
      · exact .inl (.inl h)
      · by_cases hf : f r k = true
        · exact .inl (.inr ⟨r, k, hf, h'⟩)
        · simp only [Bool.not_eq_true] at hf
          refine .inr ⟨r, k, by simpa [hf] using h, ?_⟩
          simpa [h1.pixel, hf] using h'
  · rw [h2.dirty, h1.dirty]
    constructor
    · rintro ((h | ⟨r, k, hr, hk, h⟩) | ⟨r, k, hr, hk, h⟩)
      · exact .inl h
      · exact .inr ⟨r, k, hr, hk, by simp [h]⟩
      · exact .inr ⟨r, k, hr, hk, by simp [h]⟩
    · rintro (h | ⟨r, k, hr, hk, h⟩)
      · exact .inl (.inl h)
      · rcases Bool.or_eq_true_iff.1 h with h | h
        · exact .inl (.inr ⟨r, k, hr, hk, h⟩)
        · exact .inr ⟨r, k, hr, hk, h⟩

theorem toggles_congr {f g : Nat → Nat → Bool} {a b : Canvas} (h : Toggles f a b) (e : ∀ r c, f r c = g r c) :
    Toggles g a b := by
  have : f = g := by funext r c; exact e r c
  exact this ▸ h

/-- R132: the loop's body toggles one position, or none when it is clipped. -/
theorem toggles_plot (a : Canvas) (r c : Nat) :
    Toggles (fun r' c' => decide (r' = r) && decide (c' = c)) a (a.plot r c) := by
  unfold Canvas.plot
  split_ifs with h
  · have hs : r < 32 ∧ c < 64 := ⟨h.2, h.1⟩
    refine ⟨fun r' c' => ?_, ?_, ?_⟩
    · simp only [pixel_toggle _ _ _ _ _ hs]
      by_cases hr : r' = r <;> by_cases hc : c' = c <;> simp_all
    · simp
    · simp only [true_iff]
      exact .inr ⟨r, c, hs.1, hs.2, by simp⟩
  · have hs : ¬(r < 32 ∧ c < 64) := fun e => h ⟨e.2, e.1⟩
    refine ⟨fun r' c' => ?_, ?_, ?_⟩
    · have hs' : (decide (r < 32) && decide (c < 64)) = false := by simpa using hs
      by_cases hr : r' = r
      · by_cases hc : c' = c
        · simp [hr, hc, hs']
        · simp [hc]
      · simp [hr]
    · constructor
      · exact .inl
      · rintro (e | ⟨r', c', e, e'⟩)
        · exact e
        · simp only [Bool.and_eq_true, decide_eq_true_eq] at e
          rw [e.1, e.2, pixel_offscreen _ hs] at e'
          cases e'
    · constructor
      · exact .inl
      · rintro (e | ⟨r', c', hr, hc, e⟩)
        · exact e
        · simp only [Bool.and_eq_true, decide_eq_true_eq] at e
          exact absurd ⟨e.1 ▸ hr, e.2 ▸ hc⟩ hs

/-- R132: the inner loop over any columns of the sprite byte, each visited once. -/
theorem toggles_cols (b : Byte) (r px : Nat) (ks : List Nat) : ∀ a : Canvas, ks.Nodup →
    Toggles (fun r' c' => decide (r' = r) && ks.any fun k => decide (c' = px + k) && b.getLsbD (7 - k)) a
      (ks.foldl (fun acc k => if b.getLsbD (7 - k) then acc.plot r (px + k) else acc) a) := by
  induction ks with
  | nil => intro a _; simpa using toggles_none a
  | cons k ks ih =>
    intro a hn
    have hn' := List.nodup_cons.1 hn
    simp only [List.foldl_cons]
    have h1 : Toggles (fun r' c' => decide (r' = r) && decide (c' = px + k) && b.getLsbD (7 - k)) a
        (if b.getLsbD (7 - k) then a.plot r (px + k) else a) := by
      split_ifs with hb
      · exact toggles_congr (toggles_plot a r (px + k)) (by simp [hb])
      · exact toggles_congr (toggles_none a) (by simp [hb])
    refine toggles_congr (toggles_trans h1 (ih _ hn'.2) ?_) ?_
    · intro r' c' h
      simp only [Bool.and_eq_true, decide_eq_true_eq] at h
      simp only [Bool.and_eq_false_iff, List.any_eq_false, Bool.and_eq_true, decide_eq_true_eq, not_and]
      right
      intro j hj e
      have : j = k := by omega
      exact absurd (this ▸ hj) hn'.1
    · intro r' c'
      simp only [List.any_cons]
      cases decide (r' = r) <;> simp

/-- R132: the inner loop. -/
theorem toggles_drawRow (a : Canvas) (b : Byte) (r px : Nat) :
    Toggles (fun r' c' => decide (r' = r) && rowSet b px c') a (a.drawRow b r px) := by
  refine toggles_congr (toggles_cols b r px (List.range 8) a List.nodup_range) fun r' c' => ?_
  congr 1
  rw [Bool.eq_iff_iff]
  simp only [List.any_eq_true, List.mem_range, rowSet, Bool.and_eq_true, decide_eq_true_eq]
  constructor
  · rintro ⟨k, hk, rfl, hb⟩
    refine ⟨⟨by omega, by omega⟩, ?_⟩
    rwa [show px + k - px = k by omega]
  · rintro ⟨⟨h1, h2⟩, hb⟩
    exact ⟨c' - px, by omega, by omega, hb⟩

/-- R132: both loops. The set of toggled positions is the sprite's, clipped; a collision is a set pixel under a set
sprite bit; dirty is set when some position is toggled. -/
theorem toggles_drawRows (bs : List Byte) : ∀ (a : Canvas) (py px : Nat),
    Toggles (rowsSet bs py px) a (a.drawRows bs py px) := by
  induction bs with
  | nil =>
    intro a py px
    refine toggles_congr (toggles_none a) fun r c => ?_
    simp only [rowsSet, List.length_nil]
    by_cases h : py ≤ r
    · simp
    · simp [h]
  | cons b bs ih =>
    intro a py px
    refine toggles_congr (toggles_trans (toggles_drawRow a b py px) (ih _ (py + 1) px) ?_) ?_
    · intro r c h
      simp only [Bool.and_eq_true, decide_eq_true_eq] at h
      simp [rowsSet, h.1]
    · intro r c
      simp only [rowsSet, List.length_cons]
      by_cases hr : r = py
      · subst hr
        simp
      · by_cases hle : py + 1 ≤ r
        · obtain ⟨d, hd⟩ : ∃ d, r - py = d + 1 := ⟨r - (py + 1), by omega⟩
          rw [show r - (py + 1) = d by omega, hd]
          have e1 : decide (r < py + 1 + bs.length) = decide (r < py + (bs.length + 1)) := by
            congr 1; apply propext; omega
          simp [hr, hle, e1, show py ≤ r by omega]
        · simp [hr, hle, show ¬ py ≤ r by omega]

/-- R132: the sprite drawn on the state's display. -/
theorem toggles_drawSprite (s : State) (sprite : List Byte) (py px : Nat) :
    Toggles (rowsSet sprite py px) ⟨s.disp, false, s.dirty⟩ (drawSprite s sprite py px) :=
  toggles_drawRows sprite _ py px

end Sys2Proof.Machine
end

