-- ==== Sys2Proof/Laws/Step.lean ====
section
/-! SUPPORT. What the meanings that can take a fault do, case by case, and what a step can be. -/
namespace Sys2Proof.Machine

/-- R150: a return pops into `pc`, or takes a StackUnderflow. -/
theorem execRet_cases (s : State) :
    (∃ w ws, s.stack = w :: ws ∧ execRet s = .next ((s.setStack ws).setPc w)) ∨
    (s.stack = [] ∧ execRet s = .next (raise s .stackUnderflow)) := by
  cases h : s.stack with
  | nil => exact .inr ⟨rfl, by simp [execRet, pop_nil h]⟩
  | cons w ws => exact .inl ⟨w, ws, rfl, by simp [execRet, pop_cons h]⟩

/-- R152: a call pushes `pc` and jumps, or takes a StackOverflow. -/
theorem callWithin_cases (c : Option Nat) (nnn : Addr12) (s : State) :
    (c ≠ some s.stack.length ∧ callWithin c nnn s = (s.setStack (s.pc :: s.stack)).setPc (zext12 nnn)) ∨
    (c = some s.stack.length ∧ callWithin c nnn s = raise s .stackOverflow) := by
  by_cases h : c = some s.stack.length
  · exact .inr ⟨h, by simp [callWithin, push_eq, h]⟩
  · exact .inl ⟨h, by simp [callWithin, push_eq, h]⟩

/-- R53, R174: a store at `I` writes all its bytes, or takes a BoundsViolation. -/
theorem storeAtI_cases (bs : List Byte) (s : State) :
    (s.i.toNat + bs.length ≤ 4096 ∧ storeAtI bs s = s.setMem (s.mem.writeList s.i.toNat bs)) ∨
    (4096 < s.i.toNat + bs.length ∧ storeAtI bs s = raise s .boundsViolation) := by
  rcases Nat.lt_or_ge 4096 (s.i.toNat + bs.length) with h | h
  · exact .inr ⟨h, storeAtI_faults h⟩
  · exact .inl ⟨h, storeAtI_fits h⟩

/-- R125: a register load reads the whole range first, or takes a BoundsViolation. -/
theorem execLoadRegs_cases (x : Nibble) (s : State) :
    (s.i.toNat + (x.toNat + 1) ≤ 4096 ∧
      execLoadRegs x s = .next (setRegs s 0 (s.mem.readList s.i.toNat (x.toNat + 1)))) ∨
    (4096 < s.i.toNat + (x.toNat + 1) ∧ execLoadRegs x s = .next (raise s .boundsViolation)) := by
  rcases Nat.lt_or_ge 4096 (s.i.toNat + (x.toNat + 1)) with h | h
  · exact .inr ⟨h, by simp [execLoadRegs, memRead_eq, effAddr, show ¬ s.i.toNat + (x.toNat + 1) ≤ 4096 by omega]⟩
  · exact .inl ⟨h, by simp [execLoadRegs, memRead_eq, effAddr, h]⟩

/-- R132: the canvas a DRW that fits draws. -/
def drwCanvas (x y n : Nibble) (s : State) : Canvas :=
  drawSprite s (s.mem.readList s.i.toNat n.toNat) (s.reg y).toNat (s.reg x).toNat

/-- R132: a draw that fits, or a BoundsViolation. -/
theorem execDrw_cases (x y n : Nibble) (s : State) :
    (s.i.toNat + n.toNat ≤ 4096 ∧ execDrw x y n s =
      .next ((s.setDisplay (drwCanvas x y n s).disp (drwCanvas x y n s).dirty).setReg vf
        (flagByte (drwCanvas x y n s).collision))) ∨
    (4096 < s.i.toNat + n.toNat ∧ execDrw x y n s = .next (raise s .boundsViolation)) := by
  rcases Nat.lt_or_ge 4096 (s.i.toNat + n.toNat) with h | h
  · exact .inr ⟨h, by simp [execDrw, memRead_eq, effAddr, show ¬ s.i.toNat + n.toNat ≤ 4096 by omega]⟩
  · exact .inl ⟨h, by simp [execDrw, memRead_eq, effAddr, h, drwCanvas]⟩

/-- R132: the sprite a DRW reads is the one the rule describes. -/
theorem rowsSet_eq_spriteSetAt (x y n : Nibble) (s : State) (r c : Nat) :
    rowsSet (s.mem.readList s.i.toNat n.toNat) (s.reg y).toNat (s.reg x).toNat r c = spriteSetAt s x y n r c := by
  simp only [rowsSet, rowSet, spriteSetAt, Memory.readList_length]
  by_cases h1 : (s.reg y).toNat ≤ r
  · by_cases h2 : r < (s.reg y).toNat + n.toNat
    · rw [List.getD_eq_getElem?_getD, Memory.readList_getElem? _ _ _ _ (by omega)]
      simp [h1, h2, Bool.and_assoc]
    · simp [h2]
  · simp [h1]

/-- R132: a DRW that fits toggles exactly the sprite's positions. -/
theorem toggles_drwCanvas (x y n : Nibble) (s : State) :
    Toggles (spriteSetAt s x y n) ⟨s.disp, false, s.dirty⟩ (drwCanvas x y n s) :=
  toggles_congr (toggles_drawSprite s _ _ _) (rowsSet_eq_spriteSetAt x y n s)

/-- R90, R93: what a cycle can be, whatever the dispatch. -/
theorem cycle_cases (run : Instr → State → Host.Outcome State Fault Refusal) (s : State) :
    (∃ f, s.halt = some f ∧ cycle run s = .next s) ∨
    (s.halt = none ∧ 4096 < s.pc.toNat + 2 ∧ cycle run s = .next (raiseAtFetch (tick s))) ∨
    (s.halt = none ∧ s.pc.toNat + 2 ≤ 4096 ∧ decodeWord (wordAt s s.pc) = .invalid ∧
      cycle run s = .next (raise (advance (tick s)) .decodeFailure)) ∨
    (∃ i, s.halt = none ∧ s.pc.toNat + 2 ≤ 4096 ∧ decodeWord (wordAt s s.pc) = .instr i ∧
      cycle run s = run i (advance (tick s))) := by
  cases hh : s.halt with
  | some f => exact .inl ⟨f, rfl, by simp [cycle, hh]⟩
  | none =>
    right
    have e : cycle run s = fetchAndExecute run (tick s) := by simp [cycle, hh]
    rw [e, fetchAndExecute, fetchWord_eq]
    rcases Nat.lt_or_ge 4096 (s.pc.toNat + 2) with h | h
    · left
      simp [h, show ¬ s.pc.toNat + 2 ≤ 4096 by omega]
    · right
      cases hd : decodeWord (wordAt s s.pc) with
      | invalid => left; simp [h, hd, execOperation, execInvalid]
      | instr i => right; exact ⟨i, by simp [h, hd, execOperation]⟩

/-- R90, R93: what a step can be. -/
theorem step_cases (s : State) :
    (∃ f, s.halt = some f ∧ step s = .next s) ∨
    (s.halt = none ∧ 4096 < s.pc.toNat + 2 ∧ step s = .next (raiseAtFetch (tick s))) ∨
    (s.halt = none ∧ s.pc.toNat + 2 ≤ 4096 ∧ decodeWord (wordAt s s.pc) = .invalid ∧
      step s = .next (raise (advance (tick s)) .decodeFailure)) ∨
    (∃ i, s.halt = none ∧ s.pc.toNat + 2 ≤ 4096 ∧ decodeWord (wordAt s s.pc) = .instr i ∧
      step s = exec i (advance (tick s))) := cycle_cases exec s

/-- R90, R93: what a cycle can be under given parameters and a given answer of the environment. -/
theorem cycleWith_cases (P : Config.Params) (answer : Byte) (s : State) :
    (∃ f, s.halt = some f ∧ cycleWith P answer s = .next s) ∨
    (s.halt = none ∧ 4096 < s.pc.toNat + 2 ∧ cycleWith P answer s = .next (raiseAtFetch (tick s))) ∨
    (s.halt = none ∧ s.pc.toNat + 2 ≤ 4096 ∧ decodeWord (wordAt s s.pc) = .invalid ∧
      cycleWith P answer s = .next (raise (advance (tick s)) .decodeFailure)) ∨
    (∃ i, s.halt = none ∧ s.pc.toNat + 2 ≤ 4096 ∧ decodeWord (wordAt s s.pc) = .instr i ∧
      cycleWith P answer s = execWith P answer i (advance (tick s))) := cycle_cases (execWith P answer) s

/-- A block's cycle is the cycle of its elements with any count beside them. -/
theorem blockCycle_of_cycleWith {P : Config.Params} {answer : Byte} {e : Elements} {t : State}
    (h : cycleWith P answer (e.withDraws 0) = .next t) : blockCycle P answer e = .next t.toElements := by
  rw [blockCycle, h]

theorem cycleWith_of_blockCycle {P : Config.Params} {answer : Byte} {e f : Elements}
    (h : blockCycle P answer e = .next f) : ∃ t, cycleWith P answer (e.withDraws 0) = .next t ∧ t.toElements = f := by
  rw [blockCycle] at h
  cases hc : cycleWith P answer (e.withDraws 0) with
  | next t => rw [hc] at h; exact ⟨t, rfl, Host.Outcome.next.inj h⟩
  | fault r => rw [hc] at h; cases h
  | refused r => rw [hc] at h; cases h

end Sys2Proof.Machine
end

