-- ==== Sys2Proof/Laws/Exec.lean ====
section
/-! SUPPORT. What an instruction can do, said once: it takes the fault of R172's table, or it goes on with the latch as it
was. -/
namespace Sys2Proof.Machine

/-- Every result of a data or skip instruction is a next state with the latch as it was. -/
theorem skipIf_halt (p : Bool) (s : State) : (skipIf p s).halt = s.halt := by cases p <;> rfl

/-- R172, R174: on the listed condition an instruction takes the listed fault and does nothing else. -/
theorem exec_of_fault {i : Instr} {s : State} {k : Fault} (h : instrFault Config.params i s = some k) :
    exec i s = .next (raise s k) := by
  cases i
  case ret =>
    rcases execRet_cases s with ⟨w, ws, e, -⟩ | ⟨e, e'⟩
    · simp [instrFault, e] at h
    · simp only [instrFault, e, if_true, Option.some.injEq] at h
      exact h ▸ e'
  case call nnn =>
    simp only [instrFault] at h
    split_ifs at h with hc
    cases h
    have e : push Config.stackDepth s s.pc = none := by rw [push_eq]; exact if_pos hc
    simp [exec, execCall, callWithin, e]
  case drw x y n =>
    simp only [instrFault] at h
    split_ifs at h with hc
    cases h
    rcases execDrw_cases x y n s with ⟨h', -⟩ | ⟨-, e⟩
    · omega
    · exact e
  case ldB x =>
    simp only [instrFault] at h
    split_ifs at h with hc
    cases h
    rw [exec, execLdB, storeAtI_faults (by simpa [bcdDigits] using hc)]
  case storeRegs x =>
    simp only [instrFault] at h
    split_ifs at h with hc
    cases h
    rw [exec, execStoreRegs, storeAtI_faults (by simp; omega)]
  case loadRegs x =>
    simp only [instrFault] at h
    split_ifs at h with hc
    cases h
    rcases execLoadRegs_cases x s with ⟨h', -⟩ | ⟨-, e⟩
    · omega
    · exact e
  all_goals simp [instrFault] at h

/-- R172: on no listed condition an instruction goes on, and the latch is as it was. -/
theorem exec_of_noFault {i : Instr} {s : State} (h : instrFault Config.params i s = none) :
    ∃ t, exec i s = .next t ∧ t.halt = s.halt := by
  cases i
  case ret =>
    rcases execRet_cases s with ⟨w, ws, -, e⟩ | ⟨e, -⟩
    · exact ⟨_, e, rfl⟩
    · simp [instrFault, e] at h
  case call nnn =>
    simp only [instrFault] at h
    split_ifs at h with hc
    rcases callWithin_cases Config.params.stackDepth nnn s with ⟨-, e⟩ | ⟨e, -⟩
    · exact ⟨_, congrArg Host.Outcome.next e, rfl⟩
    · exact absurd e hc
  case drw x y n =>
    simp only [instrFault] at h
    split_ifs at h with hc
    rcases execDrw_cases x y n s with ⟨-, e⟩ | ⟨h', -⟩
    · exact ⟨_, e, rfl⟩
    · omega
  case ldB x =>
    simp only [instrFault] at h
    split_ifs at h with hc
    exact ⟨_, rfl, by rw [storeAtI_fits (by simp [bcdDigits]; omega)]; rfl⟩
  case storeRegs x =>
    simp only [instrFault] at h
    split_ifs at h with hc
    exact ⟨_, rfl, by rw [storeAtI_fits (by simp; omega)]; rfl⟩
  case loadRegs x =>
    simp only [instrFault] at h
    split_ifs at h with hc
    rcases execLoadRegs_cases x s with ⟨-, e⟩ | ⟨h', -⟩
    · exact ⟨_, e, by rw [setRegs_frame]⟩
    · omega
  case ldVxK x =>
    rcases anyPressed_spec s with ⟨-, e⟩ | ⟨-, k, -, e, -⟩
    · exact ⟨s.setPc (s.pc - 2), by rw [exec, execLdVxK, e], rfl⟩
    · exact ⟨s.setReg x (BitVec.ofNat 8 k), by rw [exec, execLdVxK, e], rfl⟩
  case seImm x nn => exact ⟨_, rfl, skipIf_halt ..⟩
  case sneImm x nn => exact ⟨_, rfl, skipIf_halt ..⟩
  case seReg x y => exact ⟨_, rfl, skipIf_halt ..⟩
  case sneReg x y => exact ⟨_, rfl, skipIf_halt ..⟩
  case skp x => exact ⟨_, rfl, skipIf_halt ..⟩
  case sknp x => exact ⟨_, rfl, skipIf_halt ..⟩
  all_goals exact ⟨_, rfl, rfl⟩

/-- R6, R112: only CALL, LD F and RND depend on the parameters or on the environment's answer. -/
theorem execWith_eq_exec (P : Config.Params) (answer : Byte) {i : Instr} (s : State) (hc : ∀ nnn, i ≠ .call nnn)
    (hf : ∀ x, i ≠ .ldF x) (hr : ∀ x nn, i ≠ .rnd x nn) : execWith P answer i s = exec i s := by
  cases i
  case call nnn => exact absurd rfl (hc nnn)
  case ldF x => exact absurd rfl (hf x)
  case rnd x nn => exact absurd rfl (hr x nn)
  all_goals rfl

/-- What an instruction under given parameters and a given answer is: one of the three, or `exec`. -/
theorem execWith_cases (P : Config.Params) (answer : Byte) (i : Instr) (s : State) :
    (∃ nnn, i = .call nnn ∧ execWith P answer i s = .next (callWithin P.stackDepth nnn s)) ∨
    (∃ x, i = .ldF x ∧ execWith P answer i s = .next (ldFFrom P.fontBase x s)) ∨
    (∃ x nn, i = .rnd x nn ∧ execWith P answer i s = .next (rndFrom answer x nn s)) ∨
    (∀ t, execWith P answer i t = exec i t ∧ instrFault P i t = instrFault Config.params i t) := by
  cases i
  case call nnn => exact .inl ⟨nnn, rfl, rfl⟩
  case ldF x => exact .inr (.inl ⟨x, rfl, rfl⟩)
  case rnd x nn => exact .inr (.inr (.inl ⟨x, nn, rfl, rfl⟩))
  all_goals exact .inr (.inr (.inr fun _ => ⟨rfl, rfl⟩))

/-- R172, R174, for every parameter: on the listed condition an instruction takes the listed fault and does nothing else. -/
theorem execWith_of_fault {P : Config.Params} {answer : Byte} {i : Instr} {s : State} {k : Fault}
    (h : instrFault P i s = some k) : execWith P answer i s = .next (raise s k) := by
  rcases execWith_cases P answer i s with ⟨nnn, rfl, e⟩ | ⟨x, rfl, -⟩ | ⟨x, nn, rfl, -⟩ | e
  · simp only [instrFault] at h
    split_ifs at h with hc
    cases h
    rcases callWithin_cases P.stackDepth nnn s with ⟨h', -⟩ | ⟨-, e'⟩
    · exact absurd hc h'
    · rw [e, e']
  · cases h
  · cases h
  · rw [(e s).1]; exact exec_of_fault ((e s).2 ▸ h)

/-- R172, for every parameter: on no listed condition an instruction goes on, and the latch is as it was. -/
theorem execWith_of_noFault {P : Config.Params} {answer : Byte} {i : Instr} {s : State} (h : instrFault P i s = none) :
    ∃ t, execWith P answer i s = .next t ∧ t.halt = s.halt := by
  rcases execWith_cases P answer i s with ⟨nnn, rfl, e⟩ | ⟨x, rfl, e⟩ | ⟨x, nn, rfl, e⟩ | e
  · rcases callWithin_cases P.stackDepth nnn s with ⟨-, e'⟩ | ⟨e', -⟩
    · exact ⟨_, e.trans (congrArg Host.Outcome.next e'), rfl⟩
    · simp [instrFault, e'] at h
  · exact ⟨_, e, rfl⟩
  · exact ⟨_, e, rfl⟩
  · rw [(e s).1]; exact exec_of_noFault ((e s).2 ▸ h)

/-- Every instruction answers a next state. -/
theorem execWith_next (P : Config.Params) (answer : Byte) (i : Instr) (s : State) :
    ∃ t, execWith P answer i s = .next t := by
  cases h : instrFault P i s with
  | some k => exact ⟨_, execWith_of_fault h⟩
  | none => obtain ⟨t, ht, -⟩ := execWith_of_noFault (answer := answer) h; exact ⟨t, ht⟩

end Sys2Proof.Machine
end

