-- ==== Sys2Proof/Laws/Draws.lean ====
section
/-! SUPPORT. The block's own cycle neither reads nor writes the count of draws (10_state.md R36 (d)): from any other count it
goes the same way and ends with that count. -/
namespace Sys2Proof.Machine

theorem skipIf_setDraws (p : Bool) (s : State) (k : Nat) : skipIf p (s.setDraws k) = (skipIf p s).setDraws k := by
  cases p <;> rfl

theorem setRegs_setDraws (s : State) (j : Nat) (bs : List Byte) (k : Nat) :
    setRegs (s.setDraws k) j bs = (setRegs s j bs).setDraws k := by
  induction bs generalizing s j with
  | nil => rfl
  | cons b bs ih => exact ih (s.setReg (BitVec.ofNat 4 j) b) (j + 1)

theorem storeAtI_setDraws (bs : List Byte) (s : State) (k : Nat) :
    storeAtI bs (s.setDraws k) = (storeAtI bs s).setDraws k := by
  rcases Nat.lt_or_ge 4096 (s.i.toNat + bs.length) with h | h
  · rw [storeAtI_faults h, storeAtI_faults (s := s.setDraws k) h]; rfl
  · rw [storeAtI_fits h, storeAtI_fits (s := s.setDraws k) h]; rfl

theorem callWithin_setDraws (c : Option Nat) (nnn : Addr12) (s : State) (k : Nat) :
    callWithin c nnn (s.setDraws k) = (callWithin c nnn s).setDraws k := by
  rcases callWithin_cases c nnn s with ⟨h, e⟩ | ⟨h, e⟩ <;>
    rcases callWithin_cases c nnn (s.setDraws k) with ⟨h', e'⟩ | ⟨h', e'⟩
  · rw [e, e']; rfl
  · exact absurd h' h
  · exact absurd h h'
  · rw [e, e']; rfl

/-- R112: an instruction given the drawn byte ignores the count. -/
theorem execWith_setDraws {P : Config.Params} {answer : Byte} {i : Instr} {s t : State} (k : Nat)
    (h : execWith P answer i s = .next t) : execWith P answer i (s.setDraws k) = .next (t.setDraws k) := by
  cases hf : instrFault P i s with
  | some j =>
    cases (execWith_of_fault hf).symm.trans h
    exact execWith_of_fault (s := s.setDraws k) (show instrFault P i (s.setDraws k) = some j by cases i <;> exact hf)
  | none =>
    cases i
    case call nnn => cases h; exact congrArg _ (callWithin_setDraws ..)
    case ret =>
      rcases execRet_cases s with ⟨w, ws, h', e⟩ | ⟨h', -⟩
      · cases e.symm.trans h
        show execRet (s.setDraws k) = _
        rw [execRet, pop_cons (s := s.setDraws k) h']; rfl
      · simp [instrFault, h'] at hf
    case drw x y n =>
      rcases execDrw_cases x y n s with ⟨h', e⟩ | ⟨h', -⟩
      · cases e.symm.trans h
        rcases execDrw_cases x y n (s.setDraws k) with ⟨-, e'⟩ | ⟨h'', -⟩
        · exact e'
        · exact absurd h'' (Nat.not_lt.2 h')
      · simp [instrFault, h'] at hf
    case ldB x => cases h; exact congrArg _ (storeAtI_setDraws ..)
    case storeRegs x => cases h; exact congrArg _ (storeAtI_setDraws ..)
    case loadRegs x =>
      rcases execLoadRegs_cases x s with ⟨h', e⟩ | ⟨h', -⟩
      · cases e.symm.trans h
        rcases execLoadRegs_cases x (s.setDraws k) with ⟨-, e'⟩ | ⟨h'', -⟩
        · exact e'.trans (congrArg _ (setRegs_setDraws ..))
        · exact absurd h'' (Nat.not_lt.2 h')
      · simp only [instrFault] at hf
        split_ifs at hf
        omega
    case ldVxK x =>
      rcases anyPressed_spec s with ⟨-, e⟩ | ⟨-, j, -, e, -⟩ <;>
        simp only [execWith, exec, execLdVxK, e] at h <;> cases h <;>
        simp only [execWith, exec, execLdVxK, show anyPressed (s.setDraws k) = anyPressed s from rfl, e] <;> rfl
    all_goals cases h; first | rfl | exact congrArg _ (skipIf_setDraws ..)

/-- An instruction given the drawn byte keeps the count. -/
theorem execWith_draws {P : Config.Params} {answer : Byte} {i : Instr} {s t : State}
    (h : execWith P answer i s = .next t) : t.draws = s.draws := by
  have h' : execWith P answer i s = .next (t.setDraws s.draws) := execWith_setDraws s.draws h
  have e := Host.Outcome.next.inj (h.symm.trans h')
  exact (congrArg State.draws e).trans rfl

/-- Only RND reads or writes the count: with the free value as the drawn byte, `exec` leaves the elements that `execWith` at
the default parameters leaves. -/
theorem exec_elements {i : Instr} {s t : State} (h : exec i s = .next t) :
    ∃ u, execWith Config.params (Config.drawByte s.draws) i s = .next u ∧ u.toElements = t.toElements := by
  cases i
  case rnd x nn => cases h; exact ⟨_, rfl, rfl⟩
  all_goals exact ⟨t, h, rfl⟩

/-- A cycle given the drawn byte ignores the count. -/
theorem cycleWith_setDraws {P : Config.Params} {answer : Byte} {s t : State} (k : Nat)
    (h : cycleWith P answer s = .next t) : cycleWith P answer (s.setDraws k) = .next (t.setDraws k) := by
  cases hs : s.halt with
  | some f =>
    simp only [cycleWith, cycle, hs] at h
    cases h
    simp only [cycleWith, cycle, State.setDraws_halt, hs]
  | none =>
    simp only [cycleWith, cycle, hs, fetchAndExecute] at h
    simp only [cycleWith, cycle, State.setDraws_halt, hs, fetchAndExecute]
    rw [show fetchWord (tick (s.setDraws k)) (tick (s.setDraws k)).pc = fetchWord (tick s) (tick s).pc from rfl]
    cases hw : fetchWord (tick s) (tick s).pc with
    | none => rw [hw] at h; cases h; rfl
    | some w =>
      rw [hw] at h
      simp only at h ⊢
      cases hd : decodeWord w with
      | invalid => rw [hd] at h; cases h; rfl
      | instr i => rw [hd] at h; exact execWith_setDraws k h

/-- A step leaves the elements that the cycle at the default parameters leaves, with the free value as the drawn byte. -/
theorem step_elements {s t : State} (h : step s = .next t) :
    ∃ u, cycleWith Config.params (Config.drawByte s.draws) s = .next u ∧ u.toElements = t.toElements := by
  cases hs : s.halt with
  | some f =>
    simp only [step, cycle, hs] at h
    cases h
    exact ⟨s, by simp only [cycleWith, cycle, hs], rfl⟩
  | none =>
    simp only [step, cycle, hs, fetchAndExecute] at h
    simp only [cycleWith, cycle, hs, fetchAndExecute]
    cases hw : fetchWord (tick s) (tick s).pc with
    | none => rw [hw] at h; cases h; exact ⟨_, rfl, rfl⟩
    | some w =>
      rw [hw] at h
      simp only at h ⊢
      cases hd : decodeWord w with
      | invalid => rw [hd] at h; cases h; exact ⟨_, rfl, rfl⟩
      | instr i => rw [hd] at h; exact exec_elements h

end Sys2Proof.Machine
end

