-- ==== Sys2Proof/Laws/HostEvents.lean ====
section
/-! SUPPORT. What a host event that is accepted does to the block. -/
namespace Sys2Proof.Machine

theorem imageOk_iff (img : List Byte) : imageOk img = true ↔ img.length ≤ 3584 :=
  ⟨of_decide_eq_true, decide_eq_true⟩

theorem keyIndexOk_iff (k : Nat) : keyIndexOk k = true ↔ k < 16 := ⟨of_decide_eq_true, decide_eq_true⟩

/-- R182 to R187: an accepted event that is no Reset, Load or Cycle leaves the block in a state that differs at most in
`KEYS` and `dirty`. -/
theorem respond_quiet {P : Config.Params} {a : Byte} {ev : Event} {p : Phase} {e : Elements} {b : Block} {r : Response}
    (h1 : ev ≠ .reset) (h2 : ev ≠ .cycle) (h3 : ∀ img, ev ≠ .load img)
    (h : respond P a ev (.live p e) = .next (b, r)) : ∃ k d, b = .live p { e with keys := k, dirty := d } := by
  cases ev with
  | reset => exact absurd rfl h1
  | cycle => exact absurd rfl h2
  | load img => exact absurd rfl (h3 img)
  | keyPress k =>
    simp only [respond, respondLive, respondKey] at h
    split_ifs at h
    simp only [Host.Outcome.next.injEq, Prod.mk.injEq] at h
    exact ⟨(keyPressEvent k e).keys, e.dirty, h.1.symm⟩
  | keyRelease k =>
    simp only [respond, respondLive, respondKey] at h
    split_ifs at h
    simp only [Host.Outcome.next.injEq, Prod.mk.injEq] at h
    exact ⟨(keyReleaseEvent k e).keys, e.dirty, h.1.symm⟩
  | displayRead =>
    simp only [respond, respondLive, Host.Outcome.next.injEq, Prod.mk.injEq] at h
    exact ⟨e.keys, e.dirty, h.1.symm⟩
  | dirtyQuery =>
    simp only [respond, respondLive, Host.Outcome.next.injEq, Prod.mk.injEq] at h
    exact ⟨e.keys, false, h.1.symm⟩
  | timerSample =>
    simp only [respond, respondLive, Host.Outcome.next.injEq, Prod.mk.injEq] at h
    exact ⟨e.keys, e.dirty, h.1.symm⟩
  | faultReport =>
    simp only [respond, respondLive, Host.Outcome.next.injEq, Prod.mk.injEq] at h
    exact ⟨e.keys, e.dirty, h.1.symm⟩

/-- R203: an accepted Load. -/
theorem respond_load {P : Config.Params} {a : Byte} {img : List Byte} {p : Phase} {e : Elements} {b : Block}
    {r : Response} (h : respond P a (.load img) (.live p e) = .next (b, r)) :
    p = .fresh ∧ imageOk img = true ∧ b = .live .loaded (loadEvent P img e) := by
  simp only [respond, respondLive, respondLoad] at h
  cases p with
  | fresh =>
    simp only at h
    split_ifs at h with hi
    simp only [Host.Outcome.next.injEq, Prod.mk.injEq] at h
    exact ⟨rfl, hi, h.1.symm⟩
  | loaded => cases h
  | running => cases h

/-- R90: an accepted Cycle is a cycle of the block. -/
theorem respond_cycle {P : Config.Params} {a : Byte} {p : Phase} {e : Elements} {b : Block} {r : Response}
    (h : respond P a .cycle (.live p e) = .next (b, r)) : ∃ f, blockCycle P a e = .next f ∧ b = .live .running f := by
  simp only [respond, respondLive, respondCycle] at h
  cases hs : blockCycle P a e with
  | next t =>
    rw [hs] at h
    simp only [Host.Outcome.next.injEq, Prod.mk.injEq] at h
    exact ⟨t, rfl, h.1.symm⟩
  | fault q => rw [hs] at h; cases h
  | refused q => rw [hs] at h; cases h

/-- R200: before the first Reset only a Reset is accepted. -/
theorem respond_unreset {P : Config.Params} {a : Byte} {ev : Event} {b : Block} {r : Response}
    (h : respond P a ev .unreset = .next (b, r)) : ev = .reset ∧ b = .live .fresh (resetElements P) := by
  cases ev <;> simp only [respond, respondUnreset, reduceCtorEq, Host.Outcome.next.injEq, Prod.mk.injEq] at h
  exact ⟨rfl, h.1.symm⟩

/-- A run of events splits at its first event. -/
theorem respondAll_cons {P : Config.Params} {ev : Event} {a : Byte} {evs : List (Event × Byte)} {b b' : Block}
    {rs : List Response} (h : respondAll P ((ev, a) :: evs) b = .next (b', rs)) :
    ∃ c r qs, respond P a ev b = .next (c, r) ∧ respondAll P evs c = .next (b', qs) ∧ rs = r :: qs := by
  simp only [respondAll] at h
  cases h1 : respond P a ev b with
  | fault q => rw [h1] at h; cases h
  | refused q => rw [h1] at h; cases h
  | next cr =>
    rw [h1] at h
    simp only at h
    cases h2 : respondAll P evs cr.1 with
    | fault q => rw [h2] at h; cases h
    | refused q => rw [h2] at h; cases h
    | next bq =>
      rw [h2] at h
      simp only [Host.Outcome.next.injEq, Prod.mk.injEq] at h
      obtain ⟨rfl, rfl⟩ := h
      exact ⟨cr.1, cr.2, bq.2, rfl, h2, rfl⟩

/-- A halted block's cycle changes nothing (R93). -/
theorem blockCycle_halted {P : Config.Params} {a : Byte} {e : Elements} {f : FaultRecord} (h : e.halt = some f) :
    blockCycle P a e = .next e := by
  have h' : (e.withDraws 0).halt = some f := h
  simp only [blockCycle, cycleWith, cycle, h']
  rfl

/-- R184: the grid holds the pixels in row-major order. -/
theorem grid_spec (d : Display) : d.grid.length = 2048 ∧
    ∀ row < 32, ∀ col < 64, d.grid[row * 64 + col]? = some (d.pixel row col) := by
  have aux : ∀ l : List (Vector Bool 64), (l.flatMap fun r => r.toList).length = l.length * 64 ∧
      ∀ row col, (hr : row < l.length) → (hc : col < 64) →
        (l.flatMap fun r => r.toList)[row * 64 + col]? = some (l[row][col]) := by
    intro l
    induction l with
    | nil => exact ⟨rfl, fun row col hr => absurd hr (by simp)⟩
    | cons v l ih =>
      refine ⟨?_, fun row col hr hc => ?_⟩
      · rw [List.flatMap_cons, List.length_append, ih.1, Vector.length_toList, List.length_cons]; omega
      · rw [List.flatMap_cons]
        cases row with
        | zero =>
          rw [List.getElem?_append_left (by rw [Vector.length_toList]; omega)]
          simp [hc]
        | succ row =>
          rw [List.getElem?_append_right (by rw [Vector.length_toList]; omega), Vector.length_toList,
            show (row + 1) * 64 + col - 64 = row * 64 + col by omega]
          simpa using ih.2 row col (by simpa using hr) hc
  refine ⟨?_, fun row hr col hc => ?_⟩
  · rw [Display.grid, (aux _).1, Vector.length_toList]
  · rw [Display.grid, (aux _).2 row col (by rw [Vector.length_toList]; exact hr) hc]
    simp [Display.pixel, hr, hc]

end Sys2Proof.Machine
end

