-- ==== Sys2Proof/Laws/PerInstr.lean ====
section
/-! SUPPORT. Lemmas per instruction: the encoder against the opcode map's own columns (30_encoding.md R76). -/
namespace Sys2Proof.Laws.RowEncoding

/-- R76: the instruction's row is a row of the table, and selects the instruction's word. -/
def Statement (i : Instr) : Prop := i.row ∈ opcodeRows ∧ i.row.selects (encode i) = true

/-- Rows are looked up in the table's three parts. -/
theorem mem_rows (i : Instr) (h : i.row ∈ opcodeRows0to7 ∨ i.row ∈ opcodeRows8toD ∨ i.row ∈ opcodeRowsEtoF) :
    i.row ∈ opcodeRows := by
  simpa [opcodeRows, or_assoc] using h

theorem cls : Statement (.cls) :=
  ⟨mem_rows _ <| .inl <| by simp [Instr.row, opcodeRows0to7],
    (selects_all rfl _).2 rfl⟩

theorem ret : Statement (.ret) :=
  ⟨mem_rows _ <| .inl <| by simp [Instr.row, opcodeRows0to7],
    (selects_all rfl _).2 rfl⟩

theorem jp (nnn : Addr12) : Statement (.jp nnn) :=
  ⟨mem_rows _ <| .inl <| by simp [Instr.row, opcodeRows0to7],
    (selects_op 0x1 (by decide) rfl _).2 (by simp [encode])⟩

theorem call (nnn : Addr12) : Statement (.call nnn) :=
  ⟨mem_rows _ <| .inl <| by simp [Instr.row, opcodeRows0to7],
    (selects_op 0x2 (by decide) rfl _).2 (by simp [encode])⟩

theorem seImm (x : Nibble) (nn : Byte) : Statement (.seImm x nn) :=
  ⟨mem_rows _ <| .inl <| by simp [Instr.row, opcodeRows0to7],
    (selects_op 0x3 (by decide) rfl _).2 (by simp [encode])⟩

theorem sneImm (x : Nibble) (nn : Byte) : Statement (.sneImm x nn) :=
  ⟨mem_rows _ <| .inl <| by simp [Instr.row, opcodeRows0to7],
    (selects_op 0x4 (by decide) rfl _).2 (by simp [encode])⟩

theorem seReg (x : Nibble) (y : Nibble) : Statement (.seReg x y) :=
  ⟨mem_rows _ <| .inl <| by simp [Instr.row, opcodeRows0to7],
    (selects_opN 0x5 0x0 (by decide) rfl _).2 (by simp [encode])⟩

theorem ldImm (x : Nibble) (nn : Byte) : Statement (.ldImm x nn) :=
  ⟨mem_rows _ <| .inl <| by simp [Instr.row, opcodeRows0to7],
    (selects_op 0x6 (by decide) rfl _).2 (by simp [encode])⟩

theorem addImm (x : Nibble) (nn : Byte) : Statement (.addImm x nn) :=
  ⟨mem_rows _ <| .inl <| by simp [Instr.row, opcodeRows0to7],
    (selects_op 0x7 (by decide) rfl _).2 (by simp [encode])⟩

theorem ldReg (x : Nibble) (y : Nibble) : Statement (.ldReg x y) :=
  ⟨mem_rows _ <| .inr <| .inl <| by simp [Instr.row, opcodeRows8toD],
    (selects_opN 0x8 0x0 (by decide) rfl _).2 (by simp [encode])⟩

theorem or (x : Nibble) (y : Nibble) : Statement (.or x y) :=
  ⟨mem_rows _ <| .inr <| .inl <| by simp [Instr.row, opcodeRows8toD],
    (selects_opN 0x8 0x1 (by decide) rfl _).2 (by simp [encode])⟩

theorem and (x : Nibble) (y : Nibble) : Statement (.and x y) :=
  ⟨mem_rows _ <| .inr <| .inl <| by simp [Instr.row, opcodeRows8toD],
    (selects_opN 0x8 0x2 (by decide) rfl _).2 (by simp [encode])⟩

theorem xor (x : Nibble) (y : Nibble) : Statement (.xor x y) :=
  ⟨mem_rows _ <| .inr <| .inl <| by simp [Instr.row, opcodeRows8toD],
    (selects_opN 0x8 0x3 (by decide) rfl _).2 (by simp [encode])⟩

theorem addReg (x : Nibble) (y : Nibble) : Statement (.addReg x y) :=
  ⟨mem_rows _ <| .inr <| .inl <| by simp [Instr.row, opcodeRows8toD],
    (selects_opN 0x8 0x4 (by decide) rfl _).2 (by simp [encode])⟩

theorem subReg (x : Nibble) (y : Nibble) : Statement (.subReg x y) :=
  ⟨mem_rows _ <| .inr <| .inl <| by simp [Instr.row, opcodeRows8toD],
    (selects_opN 0x8 0x5 (by decide) rfl _).2 (by simp [encode])⟩

theorem shr (x : Nibble) : Statement (.shr x) :=
  ⟨mem_rows _ <| .inr <| .inl <| by simp [Instr.row, opcodeRows8toD],
    (selects_opN 0x8 0x6 (by decide) rfl _).2 (by simp [encode])⟩

theorem subn (x : Nibble) (y : Nibble) : Statement (.subn x y) :=
  ⟨mem_rows _ <| .inr <| .inl <| by simp [Instr.row, opcodeRows8toD],
    (selects_opN 0x8 0x7 (by decide) rfl _).2 (by simp [encode])⟩

theorem shl (x : Nibble) : Statement (.shl x) :=
  ⟨mem_rows _ <| .inr <| .inl <| by simp [Instr.row, opcodeRows8toD],
    (selects_opN 0x8 0xE (by decide) rfl _).2 (by simp [encode])⟩

theorem sneReg (x : Nibble) (y : Nibble) : Statement (.sneReg x y) :=
  ⟨mem_rows _ <| .inr <| .inl <| by simp [Instr.row, opcodeRows8toD],
    (selects_opN 0x9 0x0 (by decide) rfl _).2 (by simp [encode])⟩

theorem ldI (nnn : Addr12) : Statement (.ldI nnn) :=
  ⟨mem_rows _ <| .inr <| .inl <| by simp [Instr.row, opcodeRows8toD],
    (selects_op 0xA (by decide) rfl _).2 (by simp [encode])⟩

theorem jpV0 (nnn : Addr12) : Statement (.jpV0 nnn) :=
  ⟨mem_rows _ <| .inr <| .inl <| by simp [Instr.row, opcodeRows8toD],
    (selects_op 0xB (by decide) rfl _).2 (by simp [encode])⟩

theorem rnd (x : Nibble) (nn : Byte) : Statement (.rnd x nn) :=
  ⟨mem_rows _ <| .inr <| .inl <| by simp [Instr.row, opcodeRows8toD],
    (selects_op 0xC (by decide) rfl _).2 (by simp [encode])⟩

theorem drw (x : Nibble) (y : Nibble) (n : Nibble) : Statement (.drw x y n) :=
  ⟨mem_rows _ <| .inr <| .inl <| by simp [Instr.row, opcodeRows8toD],
    (selects_op 0xD (by decide) rfl _).2 (by simp [encode])⟩

theorem skp (x : Nibble) : Statement (.skp x) :=
  ⟨mem_rows _ <| .inr <| .inr <| by simp [Instr.row, opcodeRowsEtoF],
    (selects_opNN 0xE 0x9E (by decide) rfl _).2 (by simp [encode])⟩

theorem sknp (x : Nibble) : Statement (.sknp x) :=
  ⟨mem_rows _ <| .inr <| .inr <| by simp [Instr.row, opcodeRowsEtoF],
    (selects_opNN 0xE 0xA1 (by decide) rfl _).2 (by simp [encode])⟩

theorem ldVxDt (x : Nibble) : Statement (.ldVxDt x) :=
  ⟨mem_rows _ <| .inr <| .inr <| by simp [Instr.row, opcodeRowsEtoF],
    (selects_opNN 0xF 0x07 (by decide) rfl _).2 (by simp [encode])⟩

theorem ldVxK (x : Nibble) : Statement (.ldVxK x) :=
  ⟨mem_rows _ <| .inr <| .inr <| by simp [Instr.row, opcodeRowsEtoF],
    (selects_opNN 0xF 0x0A (by decide) rfl _).2 (by simp [encode])⟩

theorem ldDtVx (x : Nibble) : Statement (.ldDtVx x) :=
  ⟨mem_rows _ <| .inr <| .inr <| by simp [Instr.row, opcodeRowsEtoF],
    (selects_opNN 0xF 0x15 (by decide) rfl _).2 (by simp [encode])⟩

theorem ldStVx (x : Nibble) : Statement (.ldStVx x) :=
  ⟨mem_rows _ <| .inr <| .inr <| by simp [Instr.row, opcodeRowsEtoF],
    (selects_opNN 0xF 0x18 (by decide) rfl _).2 (by simp [encode])⟩

theorem addI (x : Nibble) : Statement (.addI x) :=
  ⟨mem_rows _ <| .inr <| .inr <| by simp [Instr.row, opcodeRowsEtoF],
    (selects_opNN 0xF 0x1E (by decide) rfl _).2 (by simp [encode])⟩

theorem ldF (x : Nibble) : Statement (.ldF x) :=
  ⟨mem_rows _ <| .inr <| .inr <| by simp [Instr.row, opcodeRowsEtoF],
    (selects_opNN 0xF 0x29 (by decide) rfl _).2 (by simp [encode])⟩

theorem ldB (x : Nibble) : Statement (.ldB x) :=
  ⟨mem_rows _ <| .inr <| .inr <| by simp [Instr.row, opcodeRowsEtoF],
    (selects_opNN 0xF 0x33 (by decide) rfl _).2 (by simp [encode])⟩

theorem storeRegs (x : Nibble) : Statement (.storeRegs x) :=
  ⟨mem_rows _ <| .inr <| .inr <| by simp [Instr.row, opcodeRowsEtoF],
    (selects_opNN 0xF 0x55 (by decide) rfl _).2 (by simp [encode])⟩

theorem loadRegs (x : Nibble) : Statement (.loadRegs x) :=
  ⟨mem_rows _ <| .inr <| .inr <| by simp [Instr.row, opcodeRowsEtoF],
    (selects_opNN 0xF 0x65 (by decide) rfl _).2 (by simp [encode])⟩

end Sys2Proof.Laws.RowEncoding
end

