-- ==== Sys2Proof/Tests/Slice0.lean ====
section
/-! SUPPORT. The model's own tests: the checks of WellFormed, decoding of written-out words, one cycle per instruction on
the vectors of 95_test_vectors.md (named S, T or P after them), and a witness for every obligation with hypotheses. -/
namespace Sys2Proof.Tests
open Sys2Proof.Machine

/-- The start state of 95_test_vectors.md with `pc = a` and the word `w` at `a`. -/
def start (a w : Nat) : State := (State.reset.setPc (BitVec.ofNat 16 a)).withFetchWord 16 w

/-- The state an outcome gives; the state after Reset where it gives none. -/
def stateOf (o : Host.Outcome State Fault Refusal) : State :=
  match o with
  | .next t => t
  | .fault _ => State.reset
  | .refused _ => State.reset

/-- The state after one Cycle. -/
def after (s : State) : State := stateOf (step s)

/-- The state after one Cycle under given parameters and a given answer of `draw_byte()`. -/
def afterWith (P : Config.Params) (answer : Byte) (s : State) : State := stateOf (cycleWith P answer s)

/-- A device with room for one return address. -/
def oneDeep : Config.Params := { Config.params with stackDepth := some 1 }

/-- A device with another font, at the highest FONT_BASE R6 admits. -/
def otherFont : Config.Params where
  fontBase := 432
  fontData := List.replicate 80 0xAA
  stackDepth := none

/-- Bytes preset in memory. -/
def withBytes (a : Nat) (bs : List Byte) (s : State) : State := placeBytes s a bs

/-- A pixel preset at (column, row), as the vectors write positions. -/
def withPixel (col row : Nat) (s : State) : State := s.setDisplay (s.disp.toggle row col) s.dirty

/-- The registers `V[k] = 0xA0 + k` of T56. -/
def withRegsA0 (s : State) : State := setRegs s 0 ((List.range 16).map fun k => BitVec.ofNat 8 (0xA0 + k))

/-! ## WellFormed: an ill-formed term for each check -/

theorem test_wf_operation_invalid_refused : Operation.wellFormed .invalid = false := by decide
theorem test_wf_operation_instr : Operation.wellFormed (.instr .cls) = true := by decide
theorem test_wf_key_16_refused : keyIndexOk 16 = false ∧ keyIndexOk 15 = true := by decide
theorem test_wf_image_3585_refused :
    imageOk (List.replicate 3585 0) = false ∧ imageOk (List.replicate 3584 0) = true := by
  rw [← Bool.not_eq_true, imageOk_iff, imageOk_iff, List.length_replicate, List.length_replicate]
  decide
theorem test_wf_events_refused : Event.wellFormed (.keyPress 16) = false ∧ Event.wellFormed (.keyRelease 99) = false ∧
    Event.wellFormed (.keyPress 15) = true := by decide
theorem test_wf_event_load_refused : Event.wellFormed (.load (List.replicate 3585 0)) = false := by
  rw [Event.wellFormed, ← Bool.not_eq_true, imageOk_iff, List.length_replicate]
  decide
theorem test_wf_font_base_too_high : fontOk 433 Config.fontData = false ∧ fontOk 432 Config.fontData = true := by decide
theorem test_wf_font_too_short : fontOk 0 [0xF0] = false := by decide
theorem test_wf_configured_font : fontOk Config.fontBase Config.fontData = true := by decide
theorem test_wf_params_refused : paramsOk { Config.params with fontBase := 433 } = false ∧
    paramsOk { Config.params with fontData := [0xF0] } = false ∧ paramsOk Config.params = true ∧ paramsOk oneDeep = true ∧
    paramsOk otherFont = true := by decide
theorem test_wf_memory_refused : Memory.wf [(5, 1), (4, 1)] = false ∧ Memory.wf [(4096, 1)] = false ∧
    Memory.wf [(0, 0xF0)] = false ∧ Memory.wf [(0x300, 0)] = false ∧ Memory.wf [(0, 0), (0x300, 7)] = true := by decide

/-! ## Decoding: T1, T2, T4, T5 (words written out from 30_encoding.md R76) -/

theorem test_decode_families_0_to_7 :
    decodeWord 0x00E0#16 = .instr .cls ∧ decodeWord 0x00EE#16 = .instr .ret ∧
    decodeWord 0x1234#16 = .instr (.jp 0x234) ∧ decodeWord 0x2FFF#16 = .instr (.call 0xFFF) ∧
    decodeWord 0x3A7F#16 = .instr (.seImm 10 0x7F) ∧ decodeWord 0x4B00#16 = .instr (.sneImm 11 0) ∧
    decodeWord 0x5AB0#16 = .instr (.seReg 10 11) ∧ decodeWord 0x6C42#16 = .instr (.ldImm 12 0x42) ∧
    decodeWord 0x7DFF#16 = .instr (.addImm 13 0xFF) := by decide
theorem test_decode_family_8 :
    decodeWord 0x8EF0#16 = .instr (.ldReg 14 15) ∧ decodeWord 0x8011#16 = .instr (.or 0 1) ∧
    decodeWord 0x8232#16 = .instr (.and 2 3) ∧ decodeWord 0x8453#16 = .instr (.xor 4 5) ∧
    decodeWord 0x8674#16 = .instr (.addReg 6 7) ∧ decodeWord 0x8895#16 = .instr (.subReg 8 9) ∧
    decodeWord 0x8AB6#16 = .instr (.shr 10) ∧ decodeWord 0x8CD7#16 = .instr (.subn 12 13) ∧
    decodeWord 0x8EFE#16 = .instr (.shl 14) := by decide
theorem test_decode_families_9_to_D :
    decodeWord 0x9010#16 = .instr (.sneReg 0 1) ∧ decodeWord 0xA123#16 = .instr (.ldI 0x123) ∧
    decodeWord 0xB456#16 = .instr (.jpV0 0x456) ∧ decodeWord 0xC7F0#16 = .instr (.rnd 7 0xF0) ∧
    decodeWord 0xD89A#16 = .instr (.drw 8 9 10) := by decide
theorem test_decode_families_E_and_F :
    decodeWord 0xEB9E#16 = .instr (.skp 11) ∧ decodeWord 0xECA1#16 = .instr (.sknp 12) ∧
    decodeWord 0xF007#16 = .instr (.ldVxDt 0) ∧ decodeWord 0xF10A#16 = .instr (.ldVxK 1) ∧
    decodeWord 0xF215#16 = .instr (.ldDtVx 2) ∧ decodeWord 0xF318#16 = .instr (.ldStVx 3) ∧
    decodeWord 0xF41E#16 = .instr (.addI 4) ∧ decodeWord 0xF529#16 = .instr (.ldF 5) ∧
    decodeWord 0xF633#16 = .instr (.ldB 6) ∧ decodeWord 0xF755#16 = .instr (.storeRegs 7) ∧
    decodeWord 0xF865#16 = .instr (.loadRegs 8) := by decide
theorem test_decode_illegal_words :
    ([0x0000, 0x00E1, 0x00FE, 0x01E0, 0x0200, 0x0FFF, 0x5001, 0x5ABF, 0x8008, 0x8129, 0x812A, 0x812B, 0x812C, 0x812D,
      0x812F, 0x9001, 0x9ABF, 0xE000, 0xE19F, 0xE09D, 0xE0A2, 0xE1A0, 0xF000, 0xF006, 0xF008, 0xF01F, 0xF030, 0xF056,
      0xF075, 0xF085, 0xF100, 0xFFFF] : List Word).all (fun w => decodeWord w == .invalid) = true := by decide
theorem test_decode_shift_nibble_dropped :
    decodeWord 0x8216#16 = .instr (.shr 2) ∧ decodeWord 0x82F6#16 = .instr (.shr 2) ∧
    decodeWord 0x82FE#16 = .instr (.shl 2) ∧ encode (.shr 2) = 0x8206#16 ∧ encode (.shl 2) = 0x820E#16 := by decide
theorem test_decode_field_boundaries :
    decodeWord 0x1000#16 = .instr (.jp 0) ∧ decodeWord 0x1FFF#16 = .instr (.jp 0xFFF) ∧
    decodeWord 0xBFFF#16 = .instr (.jpV0 0xFFF) ∧ decodeWord 0x6F00#16 = .instr (.ldImm 15 0) ∧
    decodeWord 0xD000#16 = .instr (.drw 0 0 0) ∧ decodeWord 0xDFFF#16 = .instr (.drw 15 15 15) ∧
    decodeWord 0xFF65#16 = .instr (.loadRegs 15) := by decide
theorem test_decode_bytes : decodeBytes [0x12, 0x34, 0x56] = .ok (.jp 0x234) [0x56] ∧
    decodeBytes [0x12] = .reject .truncated ∧ decodeBytes [] = .reject .truncated ∧
    decodeBytes [0x51, 0x21] = .reject (.invalidWord 0x5121) := by decide
theorem test_decode_table_word : decodeTableWord 16 0x8014 = some (.addReg 0 1) ∧
    decodeTableWord 16 0x00EE = some .ret ∧ decodeTableWord 16 0x0000 = none := by decide
theorem test_fetch_word_runs_first : after (State.reset.withFetchWord 16 0x6A2F) =
    ((State.reset.withFetchWord 16 0x6A2F).setReg 10 0x2F).setPc 0x202 := by decide

/-! ## Register file (T10 to T42, S2 to S4) -/

theorem test_ldImm_T10 : (after (start 0x200 0x6A2F)).reg 10 = 0x2F ∧ (after (start 0x200 0x6A2F)).pc = 0x202 := by decide
theorem test_addImm_T11 : let t := after (((start 0x200 0x7320).setReg 3 0xF0).setReg 15 7)
    t.reg 3 = 0x10 ∧ t.reg 15 = 7 := by decide
theorem test_addImm_T12 : (after ((start 0x200 0x7F01).setReg 15 0xFF)).reg 15 = 0 := by decide
theorem test_addReg_T15 : (after (((start 0x200 0x8F14).setReg 15 0xFF).setReg 1 2)).reg 15 = 1 := by decide
theorem test_addReg_T17 : let t := after (((start 0x200 0x81F4).setReg 1 0xFE).setReg 15 3)
    t.reg 1 = 0x01 ∧ t.reg 15 = 1 := by decide
theorem test_subReg_S3a : let t := after ((((start 0x200 0x8455).setReg 4 5).setReg 5 7).setReg 15 1)
    t.reg 4 = 0xFE ∧ t.reg 15 = 0 := by decide
theorem test_subReg_T18_equal : let t := after (((start 0x200 0x8455).setReg 4 7).setReg 5 7)
    t.reg 4 = 0 ∧ t.reg 15 = 1 := by decide
theorem test_subn_S3c : let t := after (((start 0x200 0x8457).setReg 4 5).setReg 5 7)
    t.reg 4 = 2 ∧ t.reg 15 = 1 := by decide
theorem test_subn_S3d : let t := after ((((start 0x200 0x8457).setReg 4 7).setReg 5 5).setReg 15 1)
    t.reg 4 = 0xFE ∧ t.reg 15 = 0 := by decide
theorem test_shr_T26 : let t := after (((start 0x200 0x8236).setReg 2 0xFF).setReg 3 0x55)
    t.reg 2 = 0x7F ∧ t.reg 3 = 0x55 ∧ t.reg 15 = 1 := by decide
theorem test_shr_T27_vf : (after ((start 0x200 0x8F06).setReg 15 3)).reg 15 = 0 := by decide
theorem test_shl_S4b : let t := after ((start 0x200 0x820E).setReg 2 0xC0)
    t.reg 2 = 0x80 ∧ t.reg 15 = 1 := by decide
theorem test_shl_T31_vf : (after ((start 0x200 0x8FFE).setReg 15 0x81)).reg 15 = 2 := by decide
theorem test_or_T33 : let t := after ((((start 0x200 0x8121).setReg 1 0x0C).setReg 2 0x0A).setReg 15 1)
    t.reg 1 = 0x0E ∧ t.reg 2 = 0x0A ∧ t.reg 15 = 0 := by decide
theorem test_or_T36_vf : (after (((start 0x200 0x8F21).setReg 15 0xF0).setReg 2 0x0F)).reg 15 = 0 := by decide
theorem test_and_T34 : let t := after ((((start 0x200 0x8122).setReg 1 0x0C).setReg 2 0x0A).setReg 15 1)
    t.reg 1 = 0x08 ∧ t.reg 15 = 0 := by decide
theorem test_xor_T35 : let t := after ((((start 0x200 0x8123).setReg 1 0x0C).setReg 2 0x0A).setReg 15 1)
    t.reg 1 = 0x06 ∧ t.reg 15 = 0 := by decide
theorem test_ldReg_T39 : let t := after (((start 0x200 0x8370).setReg 7 0x99).setReg 15 1)
    t.reg 3 = 0x99 ∧ t.reg 7 = 0x99 ∧ t.reg 15 = 1 := by decide
/-- T40: the environment answers 0xA7. -/
theorem test_rnd_T40 : (afterWith Config.params 0xA7 (start 0x200 0xC30F)).reg 3 = 0x07 := by decide
/-- T40 with the draw left free. -/
theorem test_rnd_T40_free : (after (start 0x200 0xC30F)).reg 3 = Config.drawByte 0 &&& 0x0F := rfl
theorem test_rnd_draws_anew : (after ((start 0x200 0xC30F).setDraws 7)).draws = 8 := rfl
theorem test_rnd_given_keeps_count : (afterWith Config.params 0xA7 ((start 0x200 0xC30F).setDraws 7)).draws = 7 := by decide

/-! ## Address register and memory (T45 to T59c, S5) -/

theorem test_ldI_T45 : (after (start 0x200 0xA2F0)).i = 0x02F0 := by decide
theorem test_addI_T47 : let t := after (((start 0x200 0xF21E).setI 0x0FFF).setReg 2 1)
    t.i = 0x1000 ∧ t.reg 15 = 0 := by decide
theorem test_addI_T49 : (after (((start 0x200 0xF21E).setI 0xFFF0).setReg 2 0xFF)).i = 0x00EF := by decide
theorem test_ldF_T51 : (after ((start 0x200 0xF429).setReg 4 0x1A)).i = 0x0032 := by decide
theorem test_ldF_T52 : (after ((start 0x200 0xF429).setReg 4 0xFF)).i = 0x004B := by decide
/-- T51 with FONT_BASE = 432: 432 + 5 * 10. -/
theorem test_ldF_T51_other_font : (afterWith otherFont 0 ((start 0x200 0xF429).setReg 4 0x1A)).i = 482 := by decide
theorem test_ldB_T54 : let t := after (((start 0x200 0xF633).setReg 6 255).setI 4093)
    t.mem.read 4093 = 2 ∧ t.mem.read 4094 = 5 ∧ t.mem.read 4095 = 5 ∧ t.halt = none := by decide
theorem test_ldB_T55 : let t := after (((start 0x200 0xF633).setReg 6 255).setI 4094)
    t.halt = some ⟨.boundsViolation, 0x200, 0xF633⟩ ∧ t.pc = 0x202 ∧ t.mem.read 4094 = 0 ∧ t.mem.read 4095 = 0 := by
  decide
theorem test_storeRegs_T56 : let t := after ((withRegsA0 (start 0x200 0xFF55)).setI 4080)
    t.mem.read 4080 = 0xA0 ∧ t.mem.read 4095 = 0xAF ∧ t.i = 4080 ∧ t.halt = none := by decide
theorem test_storeRegs_T57 : let t := after ((withRegsA0 (start 0x200 0xFF55)).setI 4081)
    t.halt = some ⟨.boundsViolation, 0x200, 0xFF55⟩ ∧ t.mem.read 4081 = 0 ∧ t.mem.read 4095 = 0 := by decide
theorem test_loadRegs_T59 :
    let t := after (withBytes 0x400 [0x11, 0x22, 0x33, 0x99] (((start 0x200 0xF265).setReg 3 0x44).setI 0x400))
    t.reg 0 = 0x11 ∧ t.reg 1 = 0x22 ∧ t.reg 2 = 0x33 ∧ t.reg 3 = 0x44 ∧ t.i = 0x400 := by decide
theorem test_loadRegs_T59b :
    let t := after (withBytes 4095 [0x77] ((((start 0x200 0xF165).setReg 0 9).setReg 1 8).setI 4095))
    t.halt = some ⟨.boundsViolation, 0x200, 0xF165⟩ ∧ t.reg 0 = 9 ∧ t.reg 1 = 8 := by decide

/-! ## Display (T64 to T74, S7) -/

theorem test_cls_T64 : let t := after (withPixel 63 31 ((start 0x200 0x00E0).setReg 15 1))
    t.disp = Display.blank ∧ t.dirty = true ∧ t.reg 15 = 1 := by decide
theorem test_cls_T65 : (after (start 0x200 0x00E0)).dirty = true := by decide
theorem test_drw_T69 : let t := after (withPixel 1 0 (withPixel 2 0 (withBytes 0x300 [0xC0] ((start 0x200 0xD011).setI 0x300))))
    t.disp.pixel 0 0 = true ∧ t.disp.pixel 0 1 = false ∧ t.disp.pixel 0 2 = true ∧ t.reg 15 = 1 ∧ t.dirty = true := by
  decide
theorem test_drw_S7a : let t := after (withBytes 0x300 [0xF0] ((((start 0x200 0xD011).setReg 0 62).setReg 1 31).setI 0x300))
    t.disp.pixel 31 62 = true ∧ t.disp.pixel 31 63 = true ∧ t.disp.pixel 31 0 = false ∧ t.disp.pixel 0 0 = false ∧
      t.reg 15 = 0 ∧ t.dirty = true := by decide

/-! ## Timers and keys (T60 to T63, T75 to T85) -/

theorem test_ldVxDt_T75 : let t := after ((start 0x200 0xF307).setDt 5)
    t.dt = 4 ∧ t.reg 3 = 4 := by decide
theorem test_ldVxDt_T77 : let t := after ((start 0x200 0xF307).setReg 3 9)
    t.dt = 0 ∧ t.reg 3 = 0 := by decide
theorem test_ldDtVx_T78 : let t := after ((((start 0x200 0xF315).setReg 3 60).setDt 9).setSt 4)
    t.dt = 60 ∧ t.st = 3 := by decide
theorem test_ldStVx_T79 : let t := after (((start 0x200 0xF018).setReg 0 2).setDt 9)
    t.st = 2 ∧ t.dt = 8 := by decide
theorem test_ldVxK_T60 : let t := after (((start 0x206 0xF20A).setReg 2 0x55).setDt 3)
    t.pc = 0x206 ∧ t.reg 2 = 0x55 ∧ t.dt = 2 := by decide
theorem test_ldVxK_T61 : let t := after (((start 0x206 0xF20A).setReg 2 0x55).setKeys 0x0280)
    t.pc = 0x208 ∧ t.reg 2 = 7 := by decide
theorem test_skp_T82 : (after ((start 0x210 0xE29E).setReg 2 3)).pc = 0x212 := by decide
theorem test_skp_T83 : (after (((start 0x210 0xE29E).setReg 2 0x13).setKeys 0x0008)).pc = 0x214 := by decide
theorem test_sknp_T84 : (after ((start 0x210 0xE2A1).setReg 2 3)).pc = 0x214 := by decide
theorem test_sknp_T85 : (after (((start 0x210 0xE2A1).setReg 2 3).setKeys 0x0008)).pc = 0x212 := by decide

/-! ## Control flow (T86 to T106) -/

theorem test_ret_T87 : let t := after ((start 0x30C 0x00EE).setStack [0x302, 0x206])
    t.pc = 0x302 ∧ t.stack = [0x206] := by decide
theorem test_ret_T108 : let t := after (start 0x200 0x00EE)
    t.halt = some ⟨.stackUnderflow, 0x200, 0x00EE⟩ ∧ t.pc = 0x202 ∧ t.stack = [] := by decide
theorem test_jp_T89 : (after (start 0x20A 0x1FFF)).pc = 0xFFF ∧
    (after (after (start 0x20A 0x1FFF))).halt = some ⟨.boundsViolation, 0xFFF, 0⟩ := by decide
theorem test_call_T91 : let t := after ((start 0x204 0x2204).setStack [0x300])
    t.pc = 0x204 ∧ t.stack = [0x206, 0x300] := by decide
/-- T91 with STACK_DEPTH = 1: the call faults, with `pc` already `a + 2`. -/
theorem test_call_T91_full : let t := afterWith oneDeep 0 ((start 0x204 0x2204).setStack [0x300])
    t.halt = some ⟨.stackOverflow, 0x204, 0x2204⟩ ∧ t.stack = [0x300] ∧ t.pc = 0x206 := by decide
theorem test_call_one_deep_fits : (afterWith oneDeep 0 (start 0x204 0x2204)).stack = [0x206] ∧
    (afterWith oneDeep 0 (start 0x204 0x2204)).halt = none := by decide
theorem test_jpV0_T92 : (after ((start 0x200 0xB300).setReg 0 4)).pc = 0x304 := by decide
theorem test_jpV0_T93 : (after ((start 0x200 0xBFFF).setReg 0 0xFF)).pc = 0x10FE := by decide
theorem test_seImm_T94_T95 : (after (start 0x208 0x3000)).pc = 0x20C ∧
    (after ((start 0x208 0x3000).setReg 0 1)).pc = 0x20A := by decide
theorem test_seImm_T104 : (after (start 4094 0x3000)).pc = 0x1002 := by decide
theorem test_sneImm_T96_T97 : (after ((start 0x208 0x4105).setReg 1 7)).pc = 0x20C ∧
    (after ((start 0x208 0x4105).setReg 1 5)).pc = 0x20A := by decide
theorem test_seReg_T98_T99 : (after (((start 0x208 0x5120).setReg 1 9).setReg 2 9)).pc = 0x20C ∧
    (after (((start 0x208 0x5120).setReg 1 9).setReg 2 8)).pc = 0x20A := by decide
theorem test_sneReg_T101_T102 : (after (((start 0x208 0x9120).setReg 1 9).setReg 2 8)).pc = 0x20C ∧
    (after (((start 0x208 0x9120).setReg 1 9).setReg 2 9)).pc = 0x20A := by decide

/-! ## Faults, host events, reset (T80, T105, T109 to T115) -/

/-- The state after T80. -/
def afterT80 : State := after ((start 0x200 0x5121).setDt 3)

theorem test_invalid_T80 : afterT80.halt = some ⟨.decodeFailure, 0x200, 0x5121⟩ ∧ afterT80.pc = 0x202 ∧
    afterT80.dt = 2 := by decide
theorem test_halted_T110 : after afterT80 = afterT80 := by decide
theorem test_fetch_T109 : let t := after ((State.reset.setPc 0xFFF).setDt 2)
    t.halt = some ⟨.boundsViolation, 0xFFF, 0⟩ ∧ t.pc = 0xFFF ∧ t.dt = 1 := by decide
theorem test_odd_pc_T105 : (after (start 0x201 0x6A2F)).reg 10 = 0x2F ∧ (after (start 0x201 0x6A2F)).pc = 0x203 := by
  decide
theorem test_key_events : (keyPressEvent 9 (keyPressEvent 7 State.reset.toElements)).keys = 0x0280 ∧
    (keyReleaseEvent 7 (keyPressEvent 9 (keyPressEvent 7 State.reset.toElements))).keys = 0x0200 := by decide
theorem test_reset_T113 : State.reset.mem.read 0 = 0xF0 ∧ State.reset.mem.read 4 = 0xF0 ∧
    State.reset.mem.read 6 = 0x60 ∧ State.reset.mem.read 0x4B = 0xF0 ∧ State.reset.mem.read 0x4F = 0x80 ∧
    State.reset.mem.read 0x50 = 0 ∧ State.reset.mem.read 0xFFF = 0 := by decide
theorem test_reset_T112 : respond Config.params 0 .reset (.live .running afterT80.toElements) =
    .next (.live .fresh State.reset.toElements, .done) := by
  rw [respond, respondLive, resetElements, resetMemory_params]; rfl
theorem test_reset_other_font : (resetElements otherFont).mem.read 432 = 0xAA ∧ (resetElements otherFont).mem.read 511 = 0xAA ∧
    (resetElements otherFont).mem.read 431 = 0 ∧ (resetElements otherFont).mem.read 0 = 0 ∧
    (resetElements otherFont).mem.read 79 = 0 := by decide +kernel
theorem test_load_T114 :
    let t := loadEvent Config.params [0x12, 0x34, 0x56] State.reset.toElements
    t.mem = [(0x200, 0x12), (0x201, 0x34), (0x202, 0x56)] ∧ fetchWord (t.withDraws 0) 0x200 = some 0x1234 := by decide +kernel
theorem test_load_refused_after_load :
    ∃ r, respond Config.params 0 (.load []) (.live .loaded State.reset.toElements) = .refused r := ⟨_, rfl⟩
theorem test_cycle_event_takes_the_byte : ∃ f, respond Config.params 0xA7 .cycle (.live .loaded (start 0x200 0xC30F).toElements) =
    .next (.live .running f, .done) ∧ f.reg 3 = 0x07 := ⟨_, rfl, by decide⟩

/-! ## Witnesses: states and operands that meet the hypotheses of each statement, clause by clause, at the boundaries -/

/-- A state `I` away from the end of memory. -/
def atI (a : Nat) : State := State.reset.setI (BitVec.ofNat 16 a)

theorem witness_LogicResultsAndFlagZero : (14 : Nibble) ≠ vf := by decide
theorem witness_AddRegResultAndCarry : (14 : Nibble) ≠ vf := by decide
theorem witness_SubtractResultsAndNoBorrow : (0 : Nibble) ≠ vf := by decide
theorem witness_ShiftResultsAndFlag : (14 : Nibble) ≠ vf ∧ (15 : Nibble) = vf ∧
    ((State.reset.setReg 15 127).reg vf).toNat < 128 ∧ ¬ ((State.reset.setReg 15 128).reg vf).toNat < 128 := by decide
theorem witness_RndMasksTheDrawnByte : (0x0F : Byte).getLsbD 7 = false ∧ (2 : Nibble) ≠ 3 := by decide
theorem witness_LdFPointsAtGlyph : paramsOk otherFont = true := by decide
theorem witness_LdBStoresDigitsOrFaults : ((atI 4093).mem.wf = true ∧ (atI 4093).i.toNat + 3 ≤ 4096) ∧
    4096 < (atI 4094).i.toNat + 3 := by decide
theorem witness_StoreRegsStoresRunOrFaults :
    ((atI 4080).mem.wf = true ∧ (atI 4080).i.toNat + (15 : Nibble).toNat + 1 ≤ 4096) ∧
    4096 < (atI 4081).i.toNat + (15 : Nibble).toNat + 1 := by decide
theorem witness_LoadRegsLoadsRunOrFaults : (atI 4095).i.toNat + (0 : Nibble).toNat + 1 ≤ 4096 ∧
    4096 < (atI 4096).i.toNat + (0 : Nibble).toNat + 1 ∧ (1 : Nibble).toNat ≤ (1 : Nibble).toNat ∧
    (1 : Nibble).toNat < (2 : Nibble).toNat := by decide

/-- A state with the sprite 0x80 at 0x300. -/
def spriteState : State := withBytes 0x300 [0x80] (atI 0x300)

theorem witness_DrwTogglesSpriteAndReportsCollision_range : (atI 4081).i.toNat + (15 : Nibble).toNat ≤ 4096 ∧
    4096 < (atI 4082).i.toNat + (15 : Nibble).toNat := by decide
/-- A set sprite bit over a set pixel, and one over an unset pixel. -/
theorem witness_DrwTogglesSpriteAndReportsCollision_collision :
    (∃ row < 32, ∃ col < 64, spriteSetAt spriteState 0 0 1 row col = true ∧
      (withPixel 0 0 spriteState).disp.pixel row col = true) ∧
    (∀ row < 32, ∀ col < 64, spriteSetAt spriteState 0 0 1 row col = true → spriteState.disp.pixel row col = false) :=
  ⟨⟨0, by decide, 0, by decide, by decide⟩, fun r _ c _ _ => pixel_blank r c⟩
theorem witness_DrawingTwiceRestoresDisplay : ∃ t u,
    spriteState.i.toNat + (1 : Nibble).toNat ≤ 4096 ∧ exec (.drw 0 0 1) spriteState = .next t ∧
    t.reg 0 = spriteState.reg 0 ∧ t.i = spriteState.i ∧ t.mem = spriteState.mem ∧ exec (.drw 0 0 1) t = .next u ∧
    spriteState.disp = Display.blank ∧ ∃ row < 32, ∃ col < 64, spriteSetAt spriteState 0 0 1 row col = true :=
  ⟨stateOf (exec (.drw 0 0 1) spriteState), stateOf (exec (.drw 0 0 1) (stateOf (exec (.drw 0 0 1) spriteState))),
    by decide, rfl, by decide, by decide, by decide, rfl, rfl, 0, by decide, 0, by decide, by decide⟩
theorem witness_TimerInstructionsAgainstTheTick : Fetches (start 0x200 0xF307) (.ldVxDt 3) ∧
    Fetches (start 0x200 0xF315) (.ldDtVx 3) ∧ Fetches (start 4094 0xF018) (.ldStVx 0) ∧ (2 : Nibble) ≠ 3 ∧
    Fetches (after (withBytes 0x202 [0xF1, 0x07] (start 0x200 0xF315))) (.ldVxDt 1) ∧
    Fetches (after (withBytes 0x202 [0xF1, 0x07] (start 0x200 0xF018))) (.ldVxDt 1) := by
  unfold Fetches; decide
theorem witness_LdVxKTakesLowestKeyOrRepeats : (State.reset.setKeys 0x8000).keys ≠ 0 ∧ State.reset.keys = 0 ∧
    Fetches (start 0x206 0xF20A) (.ldVxK 2) ∧ (start 0x206 0xF20A).keys = 0 := by
  unfold Fetches; decide
theorem witness_RetPopsOrUnderflows : (State.reset.setStack [0x206]).stack = 0x206 :: [] ∧ State.reset.stack = [] := by
  decide
theorem witness_CallPushesOrOverflows : Config.params.stackDepth ≠ some (State.reset.setStack [0x300]).stack.length ∧
    oneDeep.stackDepth ≠ some State.reset.stack.length ∧
    oneDeep.stackDepth = some (State.reset.setStack [0x300]).stack.length ∧
    Config.stackDepth ≠ some (State.reset.setStack [0x300]).stack.length := by decide
theorem witness_RetUndoesCall : ∃ t, Config.stackDepth ≠ some State.reset.stack.length ∧
    exec (.call 0x300) State.reset = .next t ∧ (State.reset.setStack t.stack).stack = t.stack :=
  ⟨_, by decide, rfl, rfl⟩
theorem witness_InvalidWordHalts : State.reset.halt = none ∧ State.reset.pc.toNat + 2 ≤ 4096 ∧
    decodeWord (wordAt State.reset State.reset.pc) = .invalid := by decide
theorem witness_EncodeUndoesDecode : decodeWord 0x6A2F#16 = .instr (.ldImm 10 0x2F) ∧
    (∀ x, Instr.ldImm 10 0x2F ≠ .shr x ∧ Instr.ldImm 10 0x2F ≠ .shl x) ∧
    decodeWord 0x8AB6#16 = .instr (.shr 10) ∧ ∃ x, Instr.shr 10 = .shr x ∨ Instr.shr 10 = .shl x :=
  ⟨by decide, fun _ => ⟨nofun, nofun⟩, by decide, 10, .inl rfl⟩
theorem witness_DecoderAgreesWithOpcodeMap : decodeWord 0x8AB6#16 = .instr (.shr 10) ∧
    (Instr.shr 10).row ∈ opcodeRows ∧ (Instr.shr 10).row.selects 0x8AB6#16 = true ∧
    decodeWord 0x8008#16 = .invalid ∧ legalWord 0x8008#16 = false := by decide
theorem witness_StepRunsTheDecodedInstruction : (start 4094 0x1200).halt = none ∧
    (start 4094 0x1200).pc.toNat + 2 ≤ 4096 ∧
    decodeBytes [(start 4094 0x1200).mem.read 4094, (start 4094 0x1200).mem.read 4095] = .ok (.jp 0x200) [] := by decide
theorem witness_StepIsTheBlockCycle : (∀ nnn, Instr.ldImm 3 7 ≠ .call nnn) ∧ (∀ x, Instr.ldImm 3 7 ≠ .ldF x) ∧
    ∀ x nn, Instr.ldImm 3 7 ≠ .rnd x nn := ⟨nofun, nofun, nofun⟩
theorem witness_HaltedCycleChangesNothing : afterT80.halt = some ⟨.decodeFailure, 0x200, 0x5121⟩ := by decide
theorem witness_FetchPastEndHalts : (State.reset.setPc 4095).halt = none ∧ 4095 ≤ (State.reset.setPc 4095).pc.toNat := by
  decide
theorem witness_FaultsExactlyOnTheListedConditions : ∃ t u, (start 0x200 0x00EE).halt = none ∧
    step (start 0x200 0x00EE) = .next t ∧ cycleFault Config.params (start 0x200 0x00EE) = some .stackUnderflow ∧
    cycleFault Config.params (start 0x200 0x6A2F) = none ∧ ((start 0x204 0x2204).setStack [0x300]).halt = none ∧
    cycleWith oneDeep 0 ((start 0x204 0x2204).setStack [0x300]) = .next u ∧
    cycleFault oneDeep ((start 0x204 0x2204).setStack [0x300]) = some .stackOverflow :=
  ⟨after (start 0x200 0x00EE), afterWith oneDeep 0 ((start 0x204 0x2204).setStack [0x300]), by decide, rfl, by decide,
    by decide, by decide, rfl, by decide⟩
/-- A fault in step 4 at the last fetchable address, and a fault of the fetch at the first that is not. -/
theorem witness_FaultsArePrecise : ∃ t u v,
    (step (start 4094 0x0000) = .next t ∧ t.halt = some ⟨.decodeFailure, 4094, 0⟩ ∧ (start 4094 0x0000).pc.toNat < 4095) ∧
    (step (State.reset.setPc 4095) = .next u ∧ u.halt = some ⟨.boundsViolation, 4095, 0⟩ ∧
      4095 ≤ (State.reset.setPc 4095).pc.toNat) ∧
    cycleWith oneDeep 0 ((start 0x204 0x2204).setStack [0x300]) = .next v ∧
      v.halt = some ⟨.stackOverflow, 0x204, 0x2204⟩ :=
  ⟨after (start 4094 0x0000), after (State.reset.setPc 4095), afterWith oneDeep 0 ((start 0x204 0x2204).setStack [0x300]),
    ⟨rfl, by decide, by decide⟩, ⟨rfl, by decide, by decide⟩, rfl, by decide⟩
theorem witness_ComponentsChangeOnlyByTheirInstructions : ∃ t, exec (.ldI 0x300) State.reset = .next t := ⟨_, rfl⟩
theorem witness_RegistersChangeOnlyAsDestinationOrFlag : ∃ t, exec (.ldImm 3 7) State.reset = .next t ∧
    destRegs (.ldImm 3 7) vf = false ∧ writesFlag (.ldImm 3 7) = false ∧ destRegs (.or 3 4) 2 = false ∧ (2 : Nibble) ≠ vf :=
  ⟨_, rfl, by decide, by decide, by decide, by decide⟩
theorem witness_PcAfterEachInstruction : ∃ t, exec (.jp 0x300) State.reset = .next t := ⟨_, rfl⟩
theorem witness_TimersTickInEveryRunningCycle : ∃ t, (start 0x200 0x6A2F).halt = none ∧
    step (start 0x200 0x6A2F) = .next t ∧ (∀ x, ¬ Fetches (start 0x200 0x6A2F) (.ldDtVx x)) ∧
    ∀ x, ¬ Fetches (start 0x200 0x6A2F) (.ldStVx x) := by
  have h : decodeWord (wordAt (start 0x200 0x6A2F) (start 0x200 0x6A2F).pc) = .instr (.ldImm 10 0x2F) := by decide
  refine ⟨_, by decide, rfl, ?_, ?_⟩ <;> rintro x ⟨-, -, e⟩ <;> rw [h] at e <;> cases e
theorem witness_DirtyAndSoundTimerAreUnobservable : ∃ t u, step (start 0x200 0xF018) = .next t ∧
    cycleWith Config.params 0xA7 (start 0x200 0xC30F) = .next u := ⟨_, _, rfl, rfl⟩
theorem witness_MemReadChecksAndReadsRange : 4094 + 2 ≤ 4096 ∧ 4096 < 4095 + 2 ∧ 1 < 2 := by decide
theorem witness_MemWriteChecksAndWritesRange : State.reset.mem.wf = true ∧
    4094 + ([1, 2] : List Byte).length ≤ 4096 ∧ 4096 < 4095 + ([1, 2] : List Byte).length := by decide
theorem witness_StoreIsSeenByTheNextFetch : ∃ t, State.reset.mem.wf = true ∧
    memWrite State.reset (4094 : Word).toNat [0x12, 0x0E] = some t := ⟨_, by decide, rfl⟩
theorem witness_EqualContentsAreEqualMemories : Memory.wf [(0x300, 7)] = true ∧
    ∀ a, Memory.read [(0x300, 7)] a = Memory.read [(0x300, 7)] a := ⟨by decide, fun _ => rfl⟩
theorem reset_has_inv (P : Config.Params) : Inv P State.reset.toElements where
  mem_wf := reset_mem_wf
  pc_le := by decide
  stack_le := by simp [State.reset]
  depth_le := by simp [State.reset]
  halt_ok := by simp [State.reset]
theorem witness_StepKeepsTheInvariant : ∃ t f, Inv Config.params State.reset.toElements ∧ step State.reset = .next t ∧
    Inv oneDeep State.reset.toElements ∧ blockCycle oneDeep 0 State.reset.toElements = .next f :=
  ⟨after State.reset, _, reset_has_inv _, rfl, reset_has_inv _, rfl⟩
theorem witness_ResetHasTheInvariant : paramsOk otherFont = true := by decide
theorem witness_ReachableStatesHaveTheInvariant : paramsOk otherFont = true ∧
    Reachable otherFont (.live .fresh (resetElements otherFont)) :=
  ⟨by decide, .event 0 .reset _ _ .done .start rfl⟩
theorem witness_ResetLeavesTheTabledValues : paramsOk otherFont = true ∧ 79 < 80 ∧ 431 < otherFont.fontBase ∧
    otherFont.fontBase + 80 ≤ 512 := by decide
theorem witness_LoadCopiesFontAndImage : paramsOk otherFont = true ∧ State.reset.toElements.mem.wf = true ∧
    (List.replicate 3584 (7 : Byte)).length ≤ 3584 ∧ 3583 < (List.replicate 3584 (7 : Byte)).length ∧
    431 < otherFont.fontBase ∧ (431 < 0x200 ∨ 0x200 + (List.replicate 3584 (7 : Byte)).length ≤ 431) := by
  rw [List.length_replicate]
  exact ⟨by decide, reset_mem_wf, by decide, by decide, by decide, .inl (by decide)⟩
theorem witness_HostMisuseIsRefused : ∃ f t, Phase.loaded ≠ .fresh ∧ Phase.running ≠ .fresh ∧
    3584 < (List.replicate 3585 (7 : Byte)).length ∧ 16 ≤ 16 ∧ Event.cycle ≠ .reset ∧
    blockCycle oneDeep 0 State.reset.toElements = .next f ∧ Config.drawByte 0 = Config.drawByte State.reset.draws ∧
    step State.reset = .next t := by
  refine ⟨_, after State.reset, by decide, by decide, ?_, by decide, by decide, rfl, rfl, rfl⟩
  rw [List.length_replicate]
  decide
theorem witness_KeyEventsSetAndClearOneBit : 15 < 16 ∧ 14 ≠ 15 := by decide
theorem witness_DisplayReadIsRowMajor : 31 < 32 ∧ 63 < 64 := by decide
theorem witness_HostEventsReachOnlyKeysAndDirty : ∃ b r, Event.keyPress 15 ≠ .reset ∧ Event.keyPress 15 ≠ .cycle ∧
    (∀ img, Event.keyPress 15 ≠ .load img) ∧
    respond Config.params 0 (.keyPress 15) (.live .running State.reset.toElements) = .next (b, r) :=
  ⟨_, _, nofun, nofun, nofun, rfl⟩
/-- A halted block in phase `running`, which is the second clause's case. -/
theorem witness_OnlyResetLeavesTheHaltedState : ∃ b rs,
    (∀ x ∈ [(Event.cycle, (0 : Byte)), (.keyPress 4, 0), (.cycle, 7)], x.1 ≠ .reset) ∧
    afterT80.toElements.halt = some ⟨.decodeFailure, 0x200, 0x5121⟩ ∧
    respondAll Config.params [(.cycle, 0), (.keyPress 4, 0), (.cycle, 7)] (.live .running afterT80.toElements) =
      .next (b, rs) :=
  ⟨_, _, by decide, by decide, rfl⟩

end Sys2Proof.Tests
end

