-- ==== Sys2Proof/Proofs/Reset.lean ====
section
/-! Reset (70_reset_and_hazards.md R201, 10_state.md R40): the block's answer to the event, and what the elements it leaves
read as. -/
namespace Sys2Proof.Machine

/-- R200, R201: Reset is accepted by every block, and nothing of the earlier block shows in the answer. -/
@[simp] theorem respond_reset (P : Config.Params) (a : Byte) (b : Block) :
    respond P a .reset b = .next (.live .fresh (resetElements P), .done) := by
  cases b with
  | unreset => rfl
  | live p e => rfl

theorem resetElements_reg (P : Config.Params) (k : Nibble) : (resetElements P).reg k = 0 :=
  Vector.getElem_replicate k.isLt

/-- `State.reset` lists no memory, which is the memory Reset leaves at the default parameters. -/
theorem resetElements_params : resetElements Config.params = State.reset.toElements := by
  rw [resetElements, resetMemory_params]
  rfl

theorem read_resetMemory_font {P : Config.Params} (h : paramsOk P = true) {k : Nat} (hk : k < 80) :
    some ((resetMemory P).read (P.fontBase + k)) = P.fontData[k]? := by
  obtain ⟨-, hlen⟩ := (paramsOk_iff P).1 h
  have hk' : k < P.fontData.length := by omega
  rw [read_resetMemory h, if_pos (by omega), Nat.add_sub_cancel_left, List.getD_eq_getElem _ _ hk',
    List.getElem?_eq_getElem hk']

theorem read_resetMemory_outside_font {P : Config.Params} (h : paramsOk P = true) {k : Nat}
    (hk : k < P.fontBase ∨ P.fontBase + 80 ≤ k) : (resetMemory P).read k = 0 := by
  rw [read_resetMemory h, if_neg (by omega)]

/-- Settles O52: Reset answers `resetElements P` from every block; the constant elements are those of `State.reset`, and
memory's two ranges are read off `resetMemory`. -/
theorem resetLeavesTheTabledValues : Obligations.ResetLeavesTheTabledValues := by
  unfold Obligations.ResetLeavesTheTabledValues
  constructor
  · intro P a b hP
    exact ⟨resetElements P, respond_reset P a b, resetElements_reg P, rfl, rfl, rfl,
      fun _ hk => read_resetMemory_font hP hk, fun _ hk => read_resetMemory_outside_font hP hk,
      pixel_blank, rfl, rfl, rfl, rfl, rfl⟩
  · rw [respond_reset, resetElements_params]

end Sys2Proof.Machine
end

