-- ==== Sys2Proof/Proofs/Memory.lean ====
section
/-! Range reads (20_memory.md R52): the two answers of `MemRead`, one on each side of the bound 4096. -/
namespace Sys2Proof.Machine

/-- R52: a range that passes 4096 raises the BoundsViolation. -/
theorem memRead_eq_none (s : State) {a n : Nat} (h : 4096 < a + n) : memRead s a n = none := by
  rw [memRead_eq, if_neg (Nat.not_le.2 h)]

/-- R52: a range within 4096 is answered, the empty one at 4096 too. -/
theorem memRead_eq_some (s : State) {a n : Nat} (h : a + n ≤ 4096) :
    memRead s a n = some (s.mem.readList a n) := by
  rw [memRead_eq, if_pos h]

/-- Settles O45: the bound decides between the two answers, and the bytes are those of `Memory.readList`, whose length and
order the memory laws give. -/
theorem memReadChecksAndReadsRange : Obligations.MemReadChecksAndReadsRange := by
  unfold Obligations.MemReadChecksAndReadsRange
  intro s a n
  constructor
  · exact memRead_eq_none s
  · intro h
    exact ⟨s.mem.readList a n, memRead_eq_some s h, Memory.readList_length s.mem n a, Memory.readList_getElem? s.mem n a⟩

end Sys2Proof.Machine
end

