-- ==== Sys2Proof/Proofs/Decoder.lean ====
section
/-! The decoder against the opcode map (30_encoding.md R76). What decodes selects the row of its instruction
(`decodeWord_inv` and the encoder's rows); what selects a row decodes (the map read as conditions on fields); no word selects
two rows (two masks agree on what they share). -/
namespace Sys2Proof

/-! ## From the decoder to the map -/

/-- R76, R81: every instruction's row is in the map and selects the instruction's own word. -/
theorem row_selects_encode : ∀ i : Instr, Laws.RowEncoding.Statement i
  | .cls => Laws.RowEncoding.cls
  | .ret => Laws.RowEncoding.ret
  | .jp nnn => Laws.RowEncoding.jp nnn
  | .call nnn => Laws.RowEncoding.call nnn
  | .seImm x nn => Laws.RowEncoding.seImm x nn
  | .sneImm x nn => Laws.RowEncoding.sneImm x nn
  | .seReg x y => Laws.RowEncoding.seReg x y
  | .ldImm x nn => Laws.RowEncoding.ldImm x nn
  | .addImm x nn => Laws.RowEncoding.addImm x nn
  | .ldReg x y => Laws.RowEncoding.ldReg x y
  | .or x y => Laws.RowEncoding.or x y
  | .and x y => Laws.RowEncoding.and x y
  | .xor x y => Laws.RowEncoding.xor x y
  | .addReg x y => Laws.RowEncoding.addReg x y
  | .subReg x y => Laws.RowEncoding.subReg x y
  | .shr x => Laws.RowEncoding.shr x
  | .subn x y => Laws.RowEncoding.subn x y
  | .shl x => Laws.RowEncoding.shl x
  | .sneReg x y => Laws.RowEncoding.sneReg x y
  | .ldI nnn => Laws.RowEncoding.ldI nnn
  | .jpV0 nnn => Laws.RowEncoding.jpV0 nnn
  | .rnd x nn => Laws.RowEncoding.rnd x nn
  | .drw x y n => Laws.RowEncoding.drw x y n
  | .skp x => Laws.RowEncoding.skp x
  | .sknp x => Laws.RowEncoding.sknp x
  | .ldVxDt x => Laws.RowEncoding.ldVxDt x
  | .ldVxK x => Laws.RowEncoding.ldVxK x
  | .ldDtVx x => Laws.RowEncoding.ldDtVx x
  | .ldStVx x => Laws.RowEncoding.ldStVx x
  | .addI x => Laws.RowEncoding.addI x
  | .ldF x => Laws.RowEncoding.ldF x
  | .ldB x => Laws.RowEncoding.ldB x
  | .storeRegs x => Laws.RowEncoding.storeRegs x
  | .loadRegs x => Laws.RowEncoding.loadRegs x

theorem row_mem_opcodeRows (i : Instr) : i.row ∈ opcodeRows := (row_selects_encode i).1

/-- R76: a word that decodes selects its instruction's row; the shift rows leave nibble 2 free (R79). -/
theorem row_selects_of_decodeWord {w : Word} {i : Instr} (h : decodeWord w = .instr i) : i.row.selects w = true := by
  obtain rfl | ⟨x, y, rfl, rfl⟩ | ⟨x, y, rfl, rfl⟩ := decodeWord_inv h
  · exact (row_selects_encode i).2
  · exact (selects_opN 0x8 0x6 (by decide) rfl _).2 (by simp)
  · exact (selects_opN 0x8 0xE (by decide) rfl _).2 (by simp)

/-! ## Rows are disjoint -/

/-- Two rows a word selects agree on the bits that both masks cover. -/
theorem pattern_and_mask_of_selects {r r' : OpcodeRow} {w : Word} (h : r.selects w = true) (h' : r'.selects w = true) :
    r.pattern &&& r'.mask = r'.pattern &&& r.mask := by
  rw [OpcodeRow.selects, beq_iff_eq] at h h'
  rw [← h, ← h', BitVec.and_assoc, BitVec.and_assoc, BitVec.and_comm r.mask]

/-- Rows of the map that agree on the bits that both masks cover are the same row. -/
theorem opcodeRows_disjoint : ∀ r ∈ opcodeRows, ∀ r' ∈ opcodeRows,
    r.pattern &&& r'.mask = r'.pattern &&& r.mask → r = r' := by
  decide

theorem eq_of_selects {r r' : OpcodeRow} {w : Word} (hr : r ∈ opcodeRows) (hr' : r' ∈ opcodeRows)
    (h : r.selects w = true) (h' : r'.selects w = true) : r = r' :=
  opcodeRows_disjoint r hr r' hr' (pattern_and_mask_of_selects h h')

/-! ## From the map to the decoder -/

/-- The words of the rows that fix the whole word. -/
def rowWords : List Word := [0x00E0, 0x00EE]
/-- The families of the rows that fix nibble 0 only. -/
def rowOps : List Nibble := [0x1, 0x2, 0x3, 0x4, 0x6, 0x7, 0xA, 0xB, 0xC, 0xD]
/-- Nibbles 0 and 3 of the rows that fix these two. -/
def rowOpNs : List (Nibble × Nibble) :=
  [(0x5, 0x0), (0x8, 0x0), (0x8, 0x1), (0x8, 0x2), (0x8, 0x3), (0x8, 0x4), (0x8, 0x5), (0x8, 0x6), (0x8, 0x7), (0x8, 0xE),
   (0x9, 0x0)]
/-- Nibble 0 and the low byte of the rows that fix these two. -/
def rowOpNNs : List (Nibble × Byte) :=
  [(0xE, 0x9E), (0xE, 0xA1), (0xF, 0x07), (0xF, 0x0A), (0xF, 0x15), (0xF, 0x18), (0xF, 0x1E), (0xF, 0x29), (0xF, 0x33),
   (0xF, 0x55), (0xF, 0x65)]

/-- R72, R76: each row of the map has one of four masks, and its pattern is put together from the fields the mask keeps. -/
theorem opcodeRows_subset : opcodeRows ⊆
    rowWords.map (⟨·, 0xFFFF#16⟩) ++ rowOps.map (⟨formXYN · 0 0 0, 0xF000#16⟩) ++
      rowOpNs.map (fun kn => ⟨formXYN kn.1 0 0 kn.2, 0xF00F#16⟩) ++
      rowOpNNs.map (fun kn => ⟨formXNN kn.1 0 kn.2, 0xF0FF#16⟩) := by
  decide

theorem decodeWord_ne_invalid_of_word {w : Word} (h : w ∈ rowWords) : decodeWord w ≠ .invalid := by
  simp only [rowWords, List.mem_cons, List.not_mem_nil, or_false] at h
  obtain rfl | rfl := h <;> decide

theorem decodeWord_ne_invalid_of_op {w : Word} (h : fieldOp w ∈ rowOps) : decodeWord w ≠ .invalid := by
  simp only [rowOps, List.mem_cons, List.not_mem_nil, or_false] at h
  obtain h | h | h | h | h | h | h | h | h | h := h <;> simp [decodeWord, h]

theorem decodeWord_ne_invalid_of_opN {w : Word} (h : (fieldOp w, fieldN w) ∈ rowOpNs) : decodeWord w ≠ .invalid := by
  simp only [rowOpNs, List.mem_cons, List.not_mem_nil, or_false, Prod.mk.injEq] at h
  obtain h | h | h | h | h | h | h | h | h | h | h := h <;>
    simp [decodeWord, decodeFamily5, decodeFamily8, decodeFamily9, h]

theorem decodeWord_ne_invalid_of_opNN {w : Word} (h : (fieldOp w, fieldNN w) ∈ rowOpNNs) : decodeWord w ≠ .invalid := by
  simp only [rowOpNNs, List.mem_cons, List.not_mem_nil, or_false, Prod.mk.injEq] at h
  obtain h | h | h | h | h | h | h | h | h | h | h := h <;> simp [decodeWord, decodeFamilyE, decodeFamilyF, h]

/-- R76, R80: the decoder gives an instruction for every word that selects a row of the map. -/
theorem decodeWord_ne_invalid_of_selects {w : Word} {r : OpcodeRow} (hr : r ∈ opcodeRows) (h : r.selects w = true) :
    decodeWord w ≠ .invalid := by
  have hshape := opcodeRows_subset hr
  simp only [List.mem_append, List.mem_map] at hshape
  obtain ((⟨p, hp, rfl⟩ | ⟨k, hk, rfl⟩) | ⟨⟨k, n⟩, hkn, rfl⟩) | ⟨⟨k, nn⟩, hkn, rfl⟩ := hshape
  · obtain rfl := (selects_all rfl w).1 h
    exact decodeWord_ne_invalid_of_word hp
  · obtain rfl := (selects_op k rfl rfl w).1 h
    exact decodeWord_ne_invalid_of_op hk
  · obtain ⟨rfl, rfl⟩ := (selects_opN k n rfl rfl w).1 h
    exact decodeWord_ne_invalid_of_opN hkn
  · obtain ⟨rfl, rfl⟩ := (selects_opNN k nn rfl rfl w).1 h
    exact decodeWord_ne_invalid_of_opNN hkn

/-- R76: a word that selects a row decodes to an instruction of that row, the only row it can select. -/
theorem exists_decodeWord_of_selects {w : Word} {r : OpcodeRow} (hr : r ∈ opcodeRows) (h : r.selects w = true) :
    ∃ i, decodeWord w = .instr i ∧ i.row = r := by
  cases hd : decodeWord w with
  | instr i => exact ⟨i, rfl, eq_of_selects (row_mem_opcodeRows i) hr (row_selects_of_decodeWord hd) h⟩
  | invalid => exact absurd hd (decodeWord_ne_invalid_of_selects hr h)

/-- R77: a word is legal when some row of the map selects it. -/
theorem legalWord_iff {w : Word} : legalWord w = true ↔ ∃ r ∈ opcodeRows, r.selects w = true := by
  rw [legalWord, List.any_eq_true]

/-- R76, R77: the words that decode to `Invalid` are those that select no row. -/
theorem decodeWord_eq_invalid_iff {w : Word} : decodeWord w = .invalid ↔ legalWord w = false := by
  rw [← Bool.not_eq_true, legalWord_iff]
  constructor
  · rintro hd ⟨r, hr, h⟩
    exact decodeWord_ne_invalid_of_selects hr h hd
  · intro hl
    cases hd : decodeWord w with
    | instr i => exact absurd ⟨i.row, row_mem_opcodeRows i, row_selects_of_decodeWord hd⟩ hl
    | invalid => rfl

/-- Settles O32: the decoder's inversion gives the first clause, the map read as conditions on fields the second and the
fourth, and the overlap of two masks the third. -/
theorem decoderAgreesWithOpcodeMap : Obligations.DecoderAgreesWithOpcodeMap := by
  unfold Obligations.DecoderAgreesWithOpcodeMap
  intro w
  exact ⟨fun i hd => ⟨row_mem_opcodeRows i, row_selects_of_decodeWord hd⟩,
    fun _ hr h => exists_decodeWord_of_selects hr h,
    fun _ hr _ hr' h h' => eq_of_selects hr hr' h h',
    decodeWord_eq_invalid_iff⟩

end Sys2Proof
end

