-- ==== Sys2Proof/Proofs/EngineCycle.lean ====
section
/-! Cycles of a halted machine (40_engine_cycle.md R93): the halt latch is read before the dispatch, so what such a cycle
answers depends on neither the parameters nor the drawn byte. -/
namespace Sys2Proof.Machine

/-- R93: a halted machine's cycle is the identity, whatever the dispatch. -/
theorem cycle_of_halted (run : Instr → State → Host.Outcome State Fault Refusal) {s : State} {f : FaultRecord}
    (h : s.halt = some f) : cycle run s = .next s := by
  rw [cycle, h]

/-- Settles O34: `step` and `cycleWith P b` are the cycles of the dispatches `exec` and `execWith P b`. -/
theorem haltedCycleChangesNothing : Obligations.HaltedCycleChangesNothing := by
  unfold Obligations.HaltedCycleChangesNothing
  intro s f h
  exact ⟨cycle_of_halted exec h, fun P b => cycle_of_halted (execWith P b) h⟩

end Sys2Proof.Machine
end

section
/-! Register-file instructions (41_register_ops.md R101 to R111). Each is a register write, a result followed by a flag, or a
flag followed by a shift (10_state.md R22); what these three leave in the registers and what they keep is said once, and so is
what each result and flag byte is as a number. -/
namespace Sys2Proof

/-! ## Words of family 8 -/

/-- R75: a word put together with nibble 0 equal to 8 is answered by its family. -/
theorem decodeWord_formXYN_eight (x y n : Nibble) :
    decodeWord (formXYN 0x8#4 x y n) = decodeFamily8 (formXYN 0x8#4 x y n) := by
  simp [decodeWord]

end Sys2Proof

namespace Sys2Proof.Machine

/-! ## Frames of the register writes -/

theorem setReg_onlyRegsChange (s : State) {x : Nibble} {xs : List Nibble} (b : Byte) (hx : x ∈ xs) :
    OnlyRegsChange xs s (s.setReg x b) := by
  constructor
  · apply onlyChanges_of <;> simp
  · intro k hk
    exact reg_setReg_ne s x k b fun e => hk (e ▸ hx)

theorem onlyRegsChange_trans {xs : List Nibble} {s t u : State} (h : OnlyRegsChange xs s t) (h' : OnlyRegsChange xs t u) :
    OnlyRegsChange xs s u := by
  obtain ⟨hc, hr⟩ := h
  obtain ⟨hc', hr'⟩ := h'
  exact ⟨onlyChanges_trans hc hc', fun k hk => (hr' k hk).trans (hr k hk)⟩

theorem resultThenFlag_onlyRegsChange (s : State) (x : Nibble) (r f : Byte) :
    OnlyRegsChange [x, vf] s (resultThenFlag s x r f) :=
  onlyRegsChange_trans (setReg_onlyRegsChange s r (by simp)) (setReg_onlyRegsChange _ f (by simp))

theorem flagThenShift_onlyRegsChange (s : State) (x : Nibble) (f : Byte) (sh : Byte → Byte) :
    OnlyRegsChange [x, vf] s (flagThenShift s x f sh) :=
  onlyRegsChange_trans (setReg_onlyRegsChange s f (by simp)) (setReg_onlyRegsChange _ _ (by simp))

/-! ## What the two orders of writing leave in `V[x]` and VF -/

/-- R22: the flag stands in VF, also when VF was the destination. -/
theorem resultThenFlag_vf (s : State) (x : Nibble) (r f : Byte) : (resultThenFlag s x r f).reg vf = f := by
  rw [reg_resultThenFlag, if_pos rfl]

theorem resultThenFlag_dest (s : State) {x : Nibble} (r f : Byte) (hx : x ≠ vf) :
    (resultThenFlag s x r f).reg x = r := by
  rw [reg_resultThenFlag, if_neg hx, if_pos rfl]

theorem flagThenShift_vf (s : State) {x : Nibble} (f : Byte) (sh : Byte → Byte) (hx : x ≠ vf) :
    (flagThenShift s x f sh).reg vf = f := by
  rw [reg_flagThenShift, if_neg hx.symm, if_pos rfl]

theorem flagThenShift_dest (s : State) {x : Nibble} (f : Byte) (sh : Byte → Byte) (hx : x ≠ vf) :
    (flagThenShift s x f sh).reg x = sh (s.reg x) := by
  rw [reg_flagThenShift, if_pos rfl, if_neg hx]

/-- D5: a shift of VF shifts the flag just written. -/
theorem flagThenShift_vf_vf (s : State) (f : Byte) (sh : Byte → Byte) : (flagThenShift s vf f sh).reg vf = sh f := by
  rw [reg_flagThenShift, if_pos rfl, if_pos rfl]

/-! ## Flags and results as numbers -/

theorem flagByte_decide_toNat (p : Prop) [Decidable p] : (flagByte (decide p)).toNat = if p then 1 else 0 := by
  by_cases h : p <;> simp [flagByte, h]

/-- R113 (b). -/
theorem carryFlag_toNat (a b : Byte) : (flagByte (carryOut a b)).toNat = if 255 < a.toNat + b.toNat then 1 else 0 :=
  flagByte_decide_toNat _

/-- R113 (c). -/
theorem noBorrowFlag_toNat (a b : Byte) : (flagByte (noBorrow a b)).toNat = if b.toNat ≤ a.toNat then 1 else 0 :=
  flagByte_decide_toNat _

theorem byte_sub_toNat (a b : Byte) : (a - b).toNat = (a.toNat + 256 - b.toNat) % 256 := by
  have hb := b.isLt
  rw [BitVec.toNat_sub]
  congr 1
  omega

/-- R108: the bit SHR drops is the remainder of the halving. -/
theorem lowBit_toNat (b : Byte) : (lowBit b).toNat = b.toNat % 2 := by
  rw [lowBit, BitVec.getLsbD, Nat.testBit_zero, flagByte_decide_toNat]
  split <;> omega

/-- R110: bit 7 of a byte is set from 128 on. -/
theorem highBit_eq (b : Byte) : highBit b = flagByte (decide (128 ≤ b.toNat)) := by
  have hb := b.isLt
  rw [highBit, BitVec.getLsbD, Nat.testBit_eq_decide_div_mod_eq]
  congr 2
  rw [eq_iff_iff]
  omega

/-- R110: the bit SHL drops is the multiple of 256 in the doubling. -/
theorem highBit_toNat (b : Byte) : (highBit b).toNat = b.toNat / 128 := by
  have hb := b.isLt
  rw [highBit_eq, flagByte_decide_toNat]
  split <;> omega

theorem byte_shiftRight_one_toNat (b : Byte) : (b >>> 1).toNat = b.toNat / 2 := by
  rw [BitVec.toNat_ushiftRight, Nat.shiftRight_one]

theorem byte_shiftLeft_one_toNat (b : Byte) : (b <<< 1).toNat = b.toNat * 2 % 256 := by
  rw [BitVec.toNat_shiftLeft, Nat.shiftLeft_eq]

/-- D5: SHR of VF drops the one bit of the flag just written. -/
theorem flagByte_shiftRight_one (p : Bool) : flagByte p >>> 1 = 0 := by
  cases p <;> rfl

/-- D5: SHL of VF doubles the flag just written. -/
theorem highBit_shiftLeft_one (b : Byte) : highBit b <<< 1 = if b.toNat < 128 then 0 else 2 := by
  rw [highBit_eq]
  by_cases h : b.toNat < 128
  · rw [if_pos h, decide_eq_false (by omega)]
    rfl
  · rw [if_neg h, decide_eq_true (by omega)]
    rfl

/-! ## The obligations -/

/-- Settles O1: one register write of the immediate. -/
theorem ldImmSetsRegister : Obligations.LdImmSetsRegister := by
  unfold Obligations.LdImmSetsRegister
  intro x nn s
  have hd : decodeWord (formXNN 0x6#4 x nn) = .instr (.ldImm x nn) := by simp [decodeWord]
  exact ⟨hd, s.setReg x nn, rfl, reg_setReg_same s x nn, setReg_onlyRegsChange s nn (by simp)⟩

/-- Settles O2: one register write of the byte sum, so VF is kept by the frame of that write. -/
theorem addImmWrapsWithoutFlag : Obligations.AddImmWrapsWithoutFlag := by
  unfold Obligations.AddImmWrapsWithoutFlag
  intro x nn s
  have hd : decodeWord (formXNN 0x7#4 x nn) = .instr (.addImm x nn) := by simp [decodeWord]
  refine ⟨hd, s.setReg x (s.reg x + nn), rfl, ?_, setReg_onlyRegsChange s _ (by simp)⟩
  rw [reg_setReg_same, BitVec.toNat_add]

/-- Settles O3: one register write of the old `V[y]`. -/
theorem ldRegCopiesRegister : Obligations.LdRegCopiesRegister := by
  unfold Obligations.LdRegCopiesRegister
  intro x y s
  have hd : decodeWord (formXYN 0x8#4 x y 0x0#4) = .instr (.ldReg x y) := by
    simp [decodeWord_formXYN_eight, decodeFamily8]
  exact ⟨hd, s.setReg x (s.reg y), rfl, reg_setReg_same s x _, setReg_onlyRegsChange s _ (by simp)⟩

/-- Settles O4: in all three the flag written after the result is 0, and the result is the library's bitwise operation. -/
theorem logicResultsAndFlagZero : Obligations.LogicResultsAndFlagZero := by
  unfold Obligations.LogicResultsAndFlagZero
  intro x y s
  have hor : decodeWord (formXYN 0x8#4 x y 0x1#4) = .instr (.or x y) := by
    simp [decodeWord_formXYN_eight, decodeFamily8]
  have hand : decodeWord (formXYN 0x8#4 x y 0x2#4) = .instr (.and x y) := by
    simp [decodeWord_formXYN_eight, decodeFamily8]
  have hxor : decodeWord (formXYN 0x8#4 x y 0x3#4) = .instr (.xor x y) := by
    simp [decodeWord_formXYN_eight, decodeFamily8]
  refine ⟨⟨hor, _, rfl, resultThenFlag_vf .., fun hx k _ => ?_, resultThenFlag_onlyRegsChange ..⟩,
    ⟨hand, _, rfl, resultThenFlag_vf .., fun hx k _ => ?_, resultThenFlag_onlyRegsChange ..⟩,
    ⟨hxor, _, rfl, resultThenFlag_vf .., fun hx k _ => ?_, resultThenFlag_onlyRegsChange ..⟩⟩
  · rw [resultThenFlag_dest s _ _ hx, BitVec.getLsbD_or]
  · rw [resultThenFlag_dest s _ _ hx, BitVec.getLsbD_and]
  · rw [resultThenFlag_dest s _ _ hx, BitVec.getLsbD_xor]

/-- Settles O5: the flag is computed from the old values and written after the sum. -/
theorem addRegResultAndCarry : Obligations.AddRegResultAndCarry := by
  unfold Obligations.AddRegResultAndCarry
  intro x y s
  have hd : decodeWord (formXYN 0x8#4 x y 0x4#4) = .instr (.addReg x y) := by
    simp [decodeWord_formXYN_eight, decodeFamily8]
  refine ⟨hd, _, rfl, ?_, fun hx => ?_, resultThenFlag_onlyRegsChange ..⟩
  · rw [resultThenFlag_vf, carryFlag_toNat]
  · rw [resultThenFlag_dest s _ _ hx, BitVec.toNat_add]

/-- Settles O6: SUB and SUBN are one subtraction with the operands exchanged. -/
theorem subtractResultsAndNoBorrow : Obligations.SubtractResultsAndNoBorrow := by
  unfold Obligations.SubtractResultsAndNoBorrow
  intro x y s
  have hsub : decodeWord (formXYN 0x8#4 x y 0x5#4) = .instr (.subReg x y) := by
    simp [decodeWord_formXYN_eight, decodeFamily8]
  have hsubn : decodeWord (formXYN 0x8#4 x y 0x7#4) = .instr (.subn x y) := by
    simp [decodeWord_formXYN_eight, decodeFamily8]
  refine ⟨⟨hsub, _, rfl, ?_, fun hx => ?_, resultThenFlag_onlyRegsChange ..⟩,
    ⟨hsubn, _, rfl, ?_, fun hx => ?_, resultThenFlag_onlyRegsChange ..⟩⟩
  · rw [resultThenFlag_vf, noBorrowFlag_toNat]
  · rw [resultThenFlag_dest s _ _ hx, byte_sub_toNat]
  · rw [resultThenFlag_vf, noBorrowFlag_toNat]
  · rw [resultThenFlag_dest s _ _ hx, byte_sub_toNat]

/-- Settles O7: for `x` other than 15 the flag and the shift do not meet; for `x` = 15 the shift reads the flag, which is 0
or 1. -/
theorem shiftResultsAndFlag : Obligations.ShiftResultsAndFlag := by
  unfold Obligations.ShiftResultsAndFlag
  intro x s
  have hshr (y : Nibble) : decodeWord (formXYN 0x8#4 x y 0x6#4) = .instr (.shr x) := by
    simp [decodeWord_formXYN_eight, decodeFamily8]
  have hshl (y : Nibble) : decodeWord (formXYN 0x8#4 x y 0xE#4) = .instr (.shl x) := by
    simp [decodeWord_formXYN_eight, decodeFamily8]
  refine ⟨⟨hshr, _, rfl, fun hx => ⟨?_, ?_⟩, ?_, flagThenShift_onlyRegsChange ..⟩,
    ⟨hshl, _, rfl, fun hx => ⟨?_, ?_⟩, ?_, flagThenShift_onlyRegsChange ..⟩⟩
  · rw [flagThenShift_vf s _ _ hx, lowBit_toNat]
  · rw [flagThenShift_dest s _ _ hx, byte_shiftRight_one_toNat]
  · rintro rfl
    exact (flagThenShift_vf_vf s _ _).trans (flagByte_shiftRight_one _)
  · rw [flagThenShift_vf s _ _ hx, highBit_toNat]
  · rw [flagThenShift_dest s _ _ hx, byte_shiftLeft_one_toNat]
  · rintro rfl
    exact (flagThenShift_vf_vf s _ _).trans (highBit_shiftLeft_one _)

end Sys2Proof.Machine
end

section
/-! Address-register and memory instructions (42_memory_ops.md R121 to R126). Three write the address register alone; two
store a run of bytes at `I`, and one loads a run from there into the registers (R120). What such a store or load leaves and
keeps is said once, and the faults are those of R172's table. -/
namespace Sys2Proof

/-! ## Words of family F -/

/-- R75: a word put together with nibble 0 equal to 15 is answered by its family. -/
theorem decodeWord_formXNN_fifteen (x : Nibble) (nn : Byte) :
    decodeWord (formXNN 0xF#4 x nn) = decodeFamilyF (formXNN 0xF#4 x nn) := by
  simp [decodeWord]

end Sys2Proof

namespace Sys2Proof.Machine

/-! ## Frames of the writes to `I`, to memory and to a run of registers -/

theorem setI_onlyChanges (s : State) (w : Word) : OnlyChanges [.i] s (s.setI w) := by
  apply onlyChanges_of <;> simp

theorem setMem_onlyChanges (s : State) (m : Memory) : OnlyChanges [.mem] s (s.setMem m) := by
  apply onlyChanges_of <;> simp

theorem setRegs_onlyChanges (s : State) (j : Nat) (bs : List Byte) : OnlyChanges [.v] s (setRegs s j bs) := by
  rw [setRegs_frame]
  apply onlyChanges_of <;> simp

/-! ## The values written to `I`, as numbers -/

/-- R73: zero extension keeps an address operand. -/
theorem zext12_toNat (nnn : Addr12) : (zext12 nnn).toNat = nnn.toNat :=
  BitVec.toNat_setWidth_of_le (by decide)

/-- R122: zero extension keeps a byte. -/
theorem zext8_toNat (b : Byte) : (zext8 b).toNat = b.toNat :=
  BitVec.toNat_setWidth_of_le (by decide)

/-- D14: the low 4 bits are the remainder modulo 16. -/
theorem lowNibble_toNat (b : Byte) : (lowNibble b).toNat = b.toNat % 16 := by
  rw [lowNibble, BitVec.extractLsb'_toNat, Nat.shiftRight_zero]

/-- R126: no glyph address of a font below PROGRAM_START wraps. -/
theorem glyphAddr_toNat {base : Nat} (h : base + 80 ≤ 512) (d : Nibble) :
    (glyphAddr base d).toNat = base + 5 * d.toNat := by
  have hd := d.isLt
  rw [glyphAddr, BitVec.toNat_ofNat, Config.glyphBytes, Nat.mod_eq_of_lt (by omega)]

/-- R126: LD F changes `I` alone, to the address of the glyph of `V[x]`'s low 4 bits. -/
theorem ldFFrom_pointsAtGlyph {base : Nat} (h : base + 80 ≤ 512) (x : Nibble) (s : State) :
    (ldFFrom base x s).i.toNat = base + 5 * ((s.reg x).toNat % 16) ∧ OnlyChanges [.i] s (ldFFrom base x s) := by
  refine ⟨?_, setI_onlyChanges s _⟩
  rw [ldFFrom, State.setI_i, glyphAddr_toNat h, lowNibble_toNat]

/-! ## A run of bytes stored at `I` -/

/-- R53: byte `k` of a stored run that fits stands `k` above `I`. -/
theorem read_storeAtI {s : State} {bs : List Byte} (hw : s.mem.wf = true) (hb : s.i.toNat + bs.length ≤ 4096) {k : Nat}
    (hk : k < bs.length) : (storeAtI bs s).mem.read (effAddr s + k) = bs.getD k 0 := by
  rw [storeAtI_fits hb, State.setMem_mem, Memory.read_writeList bs hw hb, effAddr, if_pos (by omega),
    Nat.add_sub_cancel_left]

theorem storeAtI_sameMemoryOutside {s : State} {bs : List Byte} (hw : s.mem.wf = true)
    (hb : s.i.toNat + bs.length ≤ 4096) : SameMemoryOutside (effAddr s) bs.length s (storeAtI bs s) := by
  intro a ha
  rw [effAddr] at ha
  rw [storeAtI_fits hb, State.setMem_mem, Memory.read_writeList bs hw hb, if_neg (by omega)]

theorem storeAtI_onlyChanges {s : State} {bs : List Byte} (hb : s.i.toNat + bs.length ≤ 4096) :
    OnlyChanges [.mem] s (storeAtI bs s) := by
  rw [storeAtI_fits hb]
  exact setMem_onlyChanges s _

/-- R123: the digits fit their bytes. -/
theorem bcdDigits_toNat (b : Byte) : ((bcdDigits b).getD 0 0).toNat = b.toNat / 100 ∧
    ((bcdDigits b).getD 1 0).toNat = b.toNat / 10 % 10 ∧ ((bcdDigits b).getD 2 0).toNat = b.toNat % 10 := by
  have hb := b.isLt
  exact ⟨Nat.mod_eq_of_lt (by omega), Nat.mod_eq_of_lt (by omega), Nat.mod_eq_of_lt (by omega)⟩

/-! ## A run of bytes loaded into the registers -/

/-- R125: after a load of `V[0]` to `V[x]` each of them is its byte of the run, and the others are as before. -/
theorem reg_setRegs_readList (s : State) (a : Nat) (x k : Nibble) :
    (setRegs s 0 (s.mem.readList a (x.toNat + 1))).reg k =
      if k.toNat ≤ x.toNat then s.mem.read (a + k.toNat) else s.reg k := by
  have hx := x.isLt
  rw [reg_setRegs _ s 0 k (by rw [Memory.readList_length]; omega), Memory.readList_length]
  refine ite_congr (propext (by omega)) (fun hk => ?_) fun _ => rfl
  rw [Nat.sub_zero, List.getD_eq_getElem?_getD, Memory.readList_getElem? _ _ _ _ (by omega), Option.getD_some]

/-- R125: a load whose range lies in memory completes. -/
theorem exec_loadRegs_fits {x : Nibble} {s : State} (h : s.i.toNat + x.toNat + 1 ≤ 4096) :
    exec (.loadRegs x) s = .next (setRegs s 0 (s.mem.readList (effAddr s) (x.toNat + 1))) := by
  obtain ⟨-, e⟩ | ⟨hf, -⟩ := execLoadRegs_cases x s
  · exact e
  · omega

/-! ## Faults -/

/-- R172, R174: an instruction for which the table lists a fault raises it. -/
theorem exec_raises {i : Instr} {s : State} {k : Fault} (h : instrFault Config.params i s = some k) :
    ∃ t, exec i s = .next t ∧ Raises k s t :=
  ⟨_, exec_of_fault h, raise_raises s k⟩

/-! ## The obligations -/

/-- Settles O12: LD B stores the three digits as one run at `I`. -/
theorem ldBStoresDigitsOrFaults : Obligations.LdBStoresDigitsOrFaults := by
  unfold Obligations.LdBStoresDigitsOrFaults
  intro x s
  have hd : decodeWord (formXNN 0xF#4 x 0x33#8) = .instr (.ldB x) := by
    simp [decodeWord_formXNN_fifteen, decodeFamilyF]
  refine ⟨hd, fun hw hb => ?_, fun hf => exec_raises (if_pos hf)⟩
  have hfit : s.i.toNat + (bcdDigits (s.reg x)).length ≤ 4096 := hb
  obtain ⟨h0, h1, h2⟩ := bcdDigits_toNat (s.reg x)
  have hbytes {k : Nat} (hk : k < 3) :
      (storeAtI (bcdDigits (s.reg x)) s).mem.read (effAddr s + k) = (bcdDigits (s.reg x)).getD k 0 :=
    read_storeAtI hw hfit hk
  exact ⟨storeAtI (bcdDigits (s.reg x)) s, rfl, by rw [← h0, ← hbytes (by decide), Nat.add_zero],
    by rw [hbytes (by decide), h1], by rw [hbytes (by decide), h2],
    storeAtI_sameMemoryOutside hw hfit, storeAtI_onlyChanges hfit⟩

/-- Settles O13: LD [I], Vx stores `V[0]` to `V[x]` as one run at `I`. -/
theorem storeRegsStoresRunOrFaults : Obligations.StoreRegsStoresRunOrFaults := by
  unfold Obligations.StoreRegsStoresRunOrFaults
  intro x s
  have hd : decodeWord (formXNN 0xF#4 x 0x55#8) = .instr (.storeRegs x) := by
    simp [decodeWord_formXNN_fifteen, decodeFamilyF]
  refine ⟨hd, fun hw hb => ?_, fun hf => exec_raises (if_pos hf)⟩
  have hlen := regsUpTo_length s x
  have hfit : s.i.toNat + (regsUpTo s x).length ≤ 4096 := by omega
  have hout := storeAtI_sameMemoryOutside hw hfit
  rw [hlen] at hout
  refine ⟨storeAtI (regsUpTo s x) s, rfl, fun k hk => ?_, hout, storeAtI_onlyChanges hfit⟩
  rw [read_storeAtI hw hfit (by omega), regsUpTo_getD s x k hk]

/-- Settles O14: LD Vx, [I] loads one run from `I`, whose range is checked before the first register is written. -/
theorem loadRegsLoadsRunOrFaults : Obligations.LoadRegsLoadsRunOrFaults := by
  unfold Obligations.LoadRegsLoadsRunOrFaults
  intro x s
  have hd : decodeWord (formXNN 0xF#4 x 0x65#8) = .instr (.loadRegs x) := by
    simp [decodeWord_formXNN_fifteen, decodeFamilyF]
  refine ⟨hd, fun hb => ?_, fun hf => exec_raises (if_pos hf)⟩
  refine ⟨_, exec_loadRegs_fits hb, fun k hk => ?_, fun k hk => ?_, setRegs_onlyChanges s 0 _⟩
  · rw [reg_setRegs_readList, if_pos hk]
  · rw [reg_setRegs_readList, if_neg (by omega)]

/-- Settles O9: one write to `I` of the zero-extended operand. -/
theorem ldISetsAddress : Obligations.LdISetsAddress := by
  unfold Obligations.LdISetsAddress
  intro nnn s
  have hd : decodeWord (formAddr 0xA#4 nnn) = .instr (.ldI nnn) := by simp [decodeWord]
  exact ⟨hd, s.setI (zext12 nnn), rfl, zext12_toNat nnn, setI_onlyChanges s _⟩

/-- Settles O10: one write to `I` of the 16-bit sum, so VF is kept by the frame of that write. -/
theorem addIWrapsAtSixteenBits : Obligations.AddIWrapsAtSixteenBits := by
  unfold Obligations.AddIWrapsAtSixteenBits
  intro x s
  have hd : decodeWord (formXNN 0xF#4 x 0x1E#8) = .instr (.addI x) := by
    simp [decodeWord_formXNN_fifteen, decodeFamilyF]
  refine ⟨hd, s.setI (s.i + zext8 (s.reg x)), rfl, ?_, setI_onlyChanges s _⟩
  rw [State.setI_i, BitVec.toNat_add, zext8_toNat]

/-- Settles O11: R6 keeps every font below PROGRAM_START, the default one too, so the glyph's address does not wrap. -/
theorem ldFPointsAtGlyph : Obligations.LdFPointsAtGlyph := by
  unfold Obligations.LdFPointsAtGlyph
  intro x s
  have hd : decodeWord (formXNN 0xF#4 x 0x29#8) = .instr (.ldF x) := by
    simp [decodeWord_formXNN_fifteen, decodeFamilyF]
  refine ⟨hd, fun P b hP => ?_, ldFFrom Config.fontBase x s, rfl, ldFFrom_pointsAtGlyph (by decide) x s⟩
  obtain ⟨hbase, -⟩ := (paramsOk_iff P).1 hP
  exact ⟨ldFFrom P.fontBase x s, rfl, ldFFrom_pointsAtGlyph hbase x s⟩

end Sys2Proof.Machine
end

section
/-! Display instructions (43_display_ops.md R131, R132). A DRW that fits leaves one state, `drawn`; what it shows of the
sprite is read off `toggles_drwCanvas`, on the 32 rows and 64 columns of the display. -/
namespace Sys2Proof.Machine

theorem setDisplay_onlyChanges (s : State) (d : Display) (b : Bool) :
    OnlyChanges [.disp, .dirty] s (s.setDisplay d b) := by
  apply onlyChanges_of <;> simp

/-- A pixel that is set is on the display. -/
theorem onscreen_of_pixel {d : Display} {r c : Nat} (h : d.pixel r c = true) : r < 32 ∧ c < 64 := by
  by_contra hoff
  rw [pixel_offscreen d hoff] at h
  cases h

/-! ## The state a DRW that fits leaves -/

/-- R132: the state after a DRW whose sprite lies in memory. -/
def drawn (x y n : Nibble) (s : State) : State :=
  (s.setDisplay (drwCanvas x y n s).disp (drwCanvas x y n s).dirty).setReg vf (flagByte (drwCanvas x y n s).collision)

theorem exec_drw_fits {x y n : Nibble} {s : State} (h : s.i.toNat + n.toNat ≤ 4096) :
    exec (.drw x y n) s = .next (drawn x y n s) := by
  obtain ⟨-, e⟩ | ⟨hf, -⟩ := execDrw_cases x y n s
  · exact e
  · omega

theorem drawn_pixel (x y n : Nibble) (s : State) {row col : Nat} (hr : row < 32) (hc : col < 64) :
    (drawn x y n s).disp.pixel row col = (s.disp.pixel row col ^^ spriteSetAt s x y n row col) := by
  have hpixel := (toggles_drwCanvas x y n s).pixel row col
  rwa [decide_eq_true hr, decide_eq_true hc, Bool.and_true, Bool.and_true] at hpixel

theorem drwCanvas_collision_iff (x y n : Nibble) (s : State) : (drwCanvas x y n s).collision = true ↔
    ∃ row col, spriteSetAt s x y n row col = true ∧ s.disp.pixel row col = true := by
  simpa using (toggles_drwCanvas x y n s).collision

theorem drawn_vf (x y n : Nibble) (s : State) :
    (drawn x y n s).reg vf = flagByte (drwCanvas x y n s).collision :=
  reg_setReg_same ..

theorem drawn_vf_of_collision {x y n : Nibble} {s : State} {row col : Nat} (hset : spriteSetAt s x y n row col = true)
    (hpixel : s.disp.pixel row col = true) : (drawn x y n s).reg vf = 1 := by
  rw [drawn_vf, (drwCanvas_collision_iff x y n s).2 ⟨row, col, hset, hpixel⟩]
  rfl

/-- A collision is on the display, since a position off it reads as unset. -/
theorem drawn_vf_of_no_collision {x y n : Nibble} {s : State}
    (h : ∀ row < 32, ∀ col < 64, spriteSetAt s x y n row col = true → s.disp.pixel row col = false) :
    (drawn x y n s).reg vf = 0 := by
  have hnone : (drwCanvas x y n s).collision = false := by
    rw [← Bool.not_eq_true, drwCanvas_collision_iff]
    rintro ⟨row, col, hset, hpixel⟩
    obtain ⟨hr, hc⟩ := onscreen_of_pixel hpixel
    rw [h row hr col hc hset] at hpixel
    cases hpixel
  rw [drawn_vf, hnone]
  rfl

theorem drawn_dirty_iff (x y n : Nibble) (s : State) : (drawn x y n s).dirty = true ↔
    s.dirty = true ∨ ∃ row < 32, ∃ col < 64, spriteSetAt s x y n row col = true := by
  rw [drawn, State.setReg_dirty, State.setDisplay_dirty, (toggles_drwCanvas x y n s).dirty]
  simp only [exists_and_left]

theorem drawn_reg_ne (x y n : Nibble) (s : State) {k : Nibble} (hk : k ≠ vf) :
    (drawn x y n s).reg k = s.reg k := by
  rw [drawn, reg_setReg_ne _ _ _ _ hk, State.setDisplay_reg]

theorem drawn_onlyChanges (x y n : Nibble) (s : State) :
    OnlyChanges [.v, .disp, .dirty] s (drawn x y n s) := by
  rw [drawn]
  apply onlyChanges_of <;> simp

/-! ## The obligations -/

/-- Settles O16: the two loops of DRW toggle the sprite's positions (`toggles_drwCanvas`), and the fault is the one of R172's
table. -/
theorem drwTogglesSpriteAndReportsCollision : Obligations.DrwTogglesSpriteAndReportsCollision := by
  unfold Obligations.DrwTogglesSpriteAndReportsCollision
  intro x y n s
  have hd : decodeWord (formXYN 0xD#4 x y n) = .instr (.drw x y n) := by simp [decodeWord]
  refine ⟨hd, fun hb => ?_, fun hf => exec_raises (if_pos hf)⟩
  exact ⟨drawn x y n s, exec_drw_fits hb, fun _ hr _ hc => drawn_pixel x y n s hr hc,
    fun ⟨_, _, _, _, hset, hpixel⟩ => drawn_vf_of_collision hset hpixel, drawn_vf_of_no_collision,
    drawn_dirty_iff x y n s, fun _ hk => drawn_reg_ne x y n s hk, drawn_onlyChanges x y n s⟩

/-- Settles O15: one write of the blank display with dirty set, whatever the display was. -/
theorem clsClearsAndMarksDirty : Obligations.ClsClearsAndMarksDirty := by
  unfold Obligations.ClsClearsAndMarksDirty
  intro s
  exact ⟨by decide, s.setDisplay Display.blank true, rfl, pixel_blank, rfl, setDisplay_onlyChanges s _ _⟩

end Sys2Proof.Machine
end

section
/-! Timer and key instructions (44_timer_input_ops.md R140 to R145). A cycle that fetches an instruction is that instruction
after the tick and the advance of `pc` (40_engine_cycle.md R90, R91): so a timer read sees the ticked value, a timer write
stands over the tick, and a wait for a key takes the advance back. -/
namespace Sys2Proof

/-! ## Words of family E -/

/-- R75: a word put together with nibble 0 equal to 14 is answered by its family. -/
theorem decodeWord_formXNN_fourteen (x : Nibble) (nn : Byte) :
    decodeWord (formXNN 0xE#4 x nn) = decodeFamilyE (formXNN 0xE#4 x nn) := by
  simp [decodeWord]

end Sys2Proof

namespace Sys2Proof.Machine

/-! ## What comes before an instruction in its cycle -/

/-- R90: the cycle of a fetched instruction is the instruction, after the tick and the advance of `pc`. -/
theorem step_of_fetches {i : Instr} {s : State} (h : Fetches s i) : step s = exec i (advance (tick s)) := by
  obtain ⟨hrun, hpc, hdecode⟩ := h
  obtain ⟨f, hhalt, -⟩ | ⟨-, hpast, -⟩ | ⟨-, -, hinvalid, -⟩ | ⟨j, -, -, hj, hstep⟩ := step_cases s
  · simp [hrun] at hhalt
  · omega
  · simp [hdecode] at hinvalid
  · rw [hdecode] at hj
    cases hj
    exact hstep

/-- R34, R90: a state whose timers are those an instruction of the cycle finds has ticked. -/
theorem ticked_of_timers {s t : State} (hdt : t.dt = tickByte s.dt) (hst : t.st = tickByte s.st) : Ticked s t := by
  rw [Ticked, hdt, hst, tickByte_toNat, tickByte_toNat]
  exact ⟨rfl, rfl⟩

/-! ## Cycles of the timer instructions -/

theorem step_ldVxDt {x : Nibble} {s : State} (h : Fetches s (.ldVxDt x)) :
    step s = .next ((advance (tick s)).setReg x (tickByte s.dt)) :=
  step_of_fetches h

theorem step_ldDtVx {x : Nibble} {s : State} (h : Fetches s (.ldDtVx x)) :
    step s = .next ((advance (tick s)).setDt (s.reg x)) :=
  step_of_fetches h

theorem step_ldStVx {x : Nibble} {s : State} (h : Fetches s (.ldStVx x)) :
    step s = .next ((advance (tick s)).setSt (s.reg x)) :=
  step_of_fetches h

/-- R140: LD Vx, DT writes no timer, and the register it writes gets the ticked DT. -/
theorem reg_and_ticked_of_step_ldVxDt {x : Nibble} {s t : State} (h : Fetches s (.ldVxDt x)) (ht : step s = .next t) :
    (t.reg x).toNat = s.dt.toNat - 1 ∧ Ticked s t := by
  rw [step_ldVxDt h] at ht
  cases ht
  refine ⟨?_, ticked_of_timers rfl rfl⟩
  rw [reg_setReg_same, tickByte_toNat]

/-! ## Writes to `pc` -/

theorem setPc_onlyChanges (s : State) (w : Word) : OnlyChanges [.pc] s (s.setPc w) := by
  apply onlyChanges_of <;> simp

theorem skipIf_onlyChanges (p : Bool) (s : State) : OnlyChanges [.pc] s (skipIf p s) := by
  rw [skipIf_eq]
  exact setPc_onlyChanges s _

theorem skipIf_pc (p : Bool) (s : State) : (skipIf p s).pc = if p = true then s.pc + 2 else s.pc := by
  rw [skipIf_eq, State.setPc_pc]

/-- R157: a skip on a condition's negation skips when the condition does not hold. -/
theorem skipIf_not_pc (p : Bool) (s : State) : (skipIf (!p) s).pc = if p = true then s.pc else s.pc + 2 := by
  cases p <;> rfl

/-! ## Keys -/

/-- R32, D14: the key a register names is that of its value modulo 16. -/
theorem isPressed_lowNibble (s : State) (b : Byte) : isPressed s (lowNibble b) = s.keys.getLsbD (b.toNat % 16) := by
  rw [isPressed, lowNibble_toNat]

/-- R145: with a key down the lowest one's index is written. -/
theorem exec_ldVxK_of_pressed (x : Nibble) {s : State} (h : s.keys ≠ 0) :
    ∃ k < 16, exec (.ldVxK x) s = .next (s.setReg x (BitVec.ofNat 8 k)) ∧ s.keys.getLsbD k = true ∧
      ∀ j < k, s.keys.getLsbD j = false := by
  obtain ⟨h0, -⟩ | ⟨-, k, hk, he, hset, hlow⟩ := anyPressed_spec s
  · exact absurd h0 h
  · exact ⟨k, hk, by rw [exec, execLdVxK, he], hset, hlow⟩

/-- R145: with no key down `pc` goes back to the instruction. -/
theorem exec_ldVxK_of_no_key (x : Nibble) {s : State} (h : s.keys = 0) :
    exec (.ldVxK x) s = .next (s.setPc (s.pc - 2)) := by
  obtain ⟨-, he⟩ | ⟨hne, -⟩ := anyPressed_spec s
  · rw [exec, execLdVxK, he]
  · exact absurd h hne

/-- R145 (d): a waiting cycle is its tick, since `pc` is advanced and taken back. -/
theorem step_ldVxK_waiting {x : Nibble} {s : State} (hf : Fetches s (.ldVxK x)) (h : s.keys = 0) :
    step s = .next (tick s) := by
  have hkeys : (advance (tick s)).keys = 0 := h
  rw [step_of_fetches hf, exec_ldVxK_of_no_key x hkeys, advance_pc, BitVec.add_sub_cancel]
  rfl

/-! ## The obligations -/

/-- Settles O19: the tick stands before the instruction in its cycle, and the LD Vy, DT of the next cycle ticks the value
written. -/
theorem timerInstructionsAgainstTheTick : Obligations.TimerInstructionsAgainstTheTick := by
  unfold Obligations.TimerInstructionsAgainstTheTick
  intro x s
  have hread : decodeWord (formXNN 0xF#4 x 0x07#8) = .instr (.ldVxDt x) := by
    simp [decodeWord_formXNN_fifteen, decodeFamilyF]
  have hsetDt : decodeWord (formXNN 0xF#4 x 0x15#8) = .instr (.ldDtVx x) := by
    simp [decodeWord_formXNN_fifteen, decodeFamilyF]
  have hsetSt : decodeWord (formXNN 0xF#4 x 0x18#8) = .instr (.ldStVx x) := by
    simp [decodeWord_formXNN_fifteen, decodeFamilyF]
  refine ⟨hread, hsetDt, hsetSt, fun hf => ?_, fun hf => ?_, fun hf => ?_⟩
  · obtain ⟨hreg, hticked⟩ := reg_and_ticked_of_step_ldVxDt hf (step_ldVxDt hf)
    refine ⟨_, step_ldVxDt hf, hreg, hticked, rfl, fun k hk => reg_setReg_ne _ _ _ _ hk, ?_⟩
    apply onlyChanges_of <;> simp
  · refine ⟨_, step_ldDtVx hf, rfl, tickByte_toNat s.st, rfl, ?_, fun y u hnext hu => ?_⟩
    · apply onlyChanges_of <;> simp
    · obtain ⟨hreg, hdt, -⟩ := reg_and_ticked_of_step_ldVxDt hnext hu
      exact ⟨hreg, hdt⟩
  · refine ⟨_, step_ldStVx hf, rfl, tickByte_toNat s.dt, rfl, ?_, fun y u hnext hu => ?_⟩
    · apply onlyChanges_of <;> simp
    · obtain ⟨-, -, hst⟩ := reg_and_ticked_of_step_ldVxDt hnext hu
      exact hst

/-- Settles O20: both are skips on the bit of the key that `V[x]` names, SKNP on its negation. -/
theorem keySkipsFollowTheKeyMask : Obligations.KeySkipsFollowTheKeyMask := by
  unfold Obligations.KeySkipsFollowTheKeyMask
  intro x s
  have hskp : decodeWord (formXNN 0xE#4 x 0x9E#8) = .instr (.skp x) := by
    simp [decodeWord_formXNN_fourteen, decodeFamilyE]
  have hsknp : decodeWord (formXNN 0xE#4 x 0xA1#8) = .instr (.sknp x) := by
    simp [decodeWord_formXNN_fourteen, decodeFamilyE]
  refine ⟨⟨hskp, _, rfl, ?_, skipIf_onlyChanges _ s⟩, ⟨hsknp, _, rfl, ?_, skipIf_onlyChanges _ s⟩⟩
  · rw [skipIf_pc, isPressed_lowNibble]
  · rw [skipIf_not_pc, isPressed_lowNibble]

/-- Settles O21: a key index fits a byte, and a waiting cycle is its tick. -/
theorem ldVxKTakesLowestKeyOrRepeats : Obligations.LdVxKTakesLowestKeyOrRepeats := by
  unfold Obligations.LdVxKTakesLowestKeyOrRepeats
  intro x s
  have hd : decodeWord (formXNN 0xF#4 x 0x0A#8) = .instr (.ldVxK x) := by
    simp [decodeWord_formXNN_fifteen, decodeFamilyF]
  refine ⟨hd, fun hkeys => ?_, fun hkeys => ?_, fun hf hkeys => ?_⟩
  · obtain ⟨k, hk, he, hset, hlow⟩ := exec_ldVxK_of_pressed x hkeys
    refine ⟨_, k, he, hk, hset, hlow, ?_, setReg_onlyRegsChange s _ (by simp)⟩
    rw [reg_setReg_same, BitVec.toNat_ofNat, Nat.mod_eq_of_lt (by omega)]
  · exact ⟨_, exec_ldVxK_of_no_key x hkeys, rfl, setPc_onlyChanges s _⟩
  · refine ⟨_, step_ldVxK_waiting hf hkeys, ticked_of_timers rfl rfl, ?_⟩
    apply onlyChanges_of <;> simp

end Sys2Proof.Machine
end

section
/-! Control flow (45_control_flow.md R150 to R159). A jump, a return, a call and a skip each write `pc`, and RET and CALL the
stack besides; the faults of RET and CALL are those of R172's table, and an illegal word is a fault of its cycle. -/
namespace Sys2Proof.Machine

/-! ## Jump targets (R151, R158) -/

/-- R158: the largest sum is 0x10FE, so the 16-bit addition never wraps. -/
theorem zext12_add_zext8_toNat (nnn : Addr12) (b : Byte) : (zext12 nnn + zext8 b).toNat = nnn.toNat + b.toNat := by
  have hn : nnn.toNat < 4096 := nnn.isLt
  have hb : b.toNat < 256 := b.isLt
  rw [BitVec.toNat_add, zext12_toNat, zext8_toNat, Nat.mod_eq_of_lt (by omega)]

/-! ## Skips on a comparison (R153 to R156) -/

theorem skipIf_beq_pc (a b : Byte) (s : State) : (skipIf (a == b) s).pc = if a = b then s.pc + 2 else s.pc := by
  simp only [skipIf_pc, beq_iff_eq]

theorem skipIf_bne_pc (a b : Byte) (s : State) : (skipIf (a != b) s).pc = if a = b then s.pc else s.pc + 2 := by
  simp only [bne, skipIf_not_pc, beq_iff_eq]

/-! ## Return and call (R150, R152) -/

/-- R26: a return and a call each leave a stack and a `pc`. -/
theorem setStack_setPc_onlyChanges (s : State) (ws : List Word) (w : Word) :
    OnlyChanges [.pc, .stack] s ((s.setStack ws).setPc w) := by
  apply onlyChanges_of <;> simp

theorem exec_ret_of_cons {s : State} {w : Word} {ws : List Word} (h : s.stack = w :: ws) :
    exec .ret s = .next ((s.setStack ws).setPc w) := by
  obtain ⟨w', ws', hstack, e⟩ | ⟨hempty, -⟩ := execRet_cases s
  · rw [h] at hstack
    cases hstack
    exact e
  · rw [h] at hempty
    cases hempty

theorem callWithin_of_room {capacity : Option Nat} {s : State} (h : capacity ≠ some s.stack.length) (nnn : Addr12) :
    callWithin capacity nnn s = (s.setStack (s.pc :: s.stack)).setPc (zext12 nnn) := by
  obtain ⟨-, e⟩ | ⟨hfull, -⟩ := callWithin_cases capacity nnn s
  · exact e
  · exact absurd hfull h

/-- R152: a call that the stack has room for. -/
theorem callWithin_pushes {capacity : Option Nat} {s : State} (h : capacity ≠ some s.stack.length) (nnn : Addr12) :
    (callWithin capacity nnn s).pc.toNat = nnn.toNat ∧ (callWithin capacity nnn s).stack = s.pc :: s.stack ∧
      OnlyChanges [.pc, .stack] s (callWithin capacity nnn s) := by
  rw [callWithin_of_room h]
  exact ⟨zext12_toNat nnn, rfl, setStack_setPc_onlyChanges s _ _⟩

/-- R172, R174, for every parameter: an instruction for which the table lists a fault raises it. -/
theorem execWith_raises {P : Config.Params} (answer : Byte) {i : Instr} {s : State} {k : Fault}
    (h : instrFault P i s = some k) : ∃ t, execWith P answer i s = .next t ∧ Raises k s t :=
  ⟨_, execWith_of_fault h, raise_raises s k⟩

/-! ## The cycle of an illegal word (R159) -/

theorem step_of_invalid {s : State} (hrun : s.halt = none) (hpc : s.pc.toNat + 2 ≤ 4096)
    (hd : decodeWord (wordAt s s.pc) = .invalid) : step s = .next (raise (advance (tick s)) .decodeFailure) := by
  obtain ⟨f, hhalt, -⟩ | ⟨-, hpast, -⟩ | ⟨-, -, -, hstep⟩ | ⟨i, -, -, hi, -⟩ := step_cases s
  · simp [hrun] at hhalt
  · omega
  · exact hstep
  · simp [hd] at hi

/-- R174: a fault raised after the tick and the advance records the address and the word that were fetched. -/
theorem raise_advance_tick_halt (s : State) (k : Fault) :
    (raise (advance (tick s)) k).halt = some ⟨k, s.pc, wordAt s s.pc⟩ := by
  have hpc : (advance (tick s)).pc - 2 = s.pc := BitVec.add_sub_cancel s.pc 2
  rw [raise_halt, hpc]
  rfl

/-! ## The obligations -/

/-- Settles O22: RET splits on the stack, and the empty one is a fault of R172's table. -/
theorem retPopsOrUnderflows : Obligations.RetPopsOrUnderflows := by
  unfold Obligations.RetPopsOrUnderflows
  intro s
  refine ⟨by decide, fun w ws hs => ?_, fun hs => exec_raises (if_pos hs)⟩
  exact ⟨_, exec_ret_of_cons hs, rfl, rfl, setStack_setPc_onlyChanges s ws w⟩

/-- Settles O23: one write to `pc` of the zero-extended operand. -/
theorem jpSetsPc : Obligations.JpSetsPc := by
  unfold Obligations.JpSetsPc
  intro nnn s
  have hd : decodeWord (formAddr 0x1#4 nnn) = .instr (.jp nnn) := by simp [decodeWord]
  exact ⟨hd, s.setPc (zext12 nnn), rfl, zext12_toNat nnn, setPc_onlyChanges s _⟩

/-- Settles O24: what a call leaves depends on STACK_DEPTH only through whether the stack has reached it. -/
theorem callPushesOrOverflows : Obligations.CallPushesOrOverflows := by
  unfold Obligations.CallPushesOrOverflows
  intro nnn s
  have hd : decodeWord (formAddr 0x2#4 nnn) = .instr (.call nnn) := by simp [decodeWord]
  refine ⟨hd, fun P b => ⟨fun hroom => ?_, fun hfull => execWith_raises b (if_pos hfull)⟩, fun hroom => ?_⟩
  · exact ⟨callWithin P.stackDepth nnn s, rfl, callWithin_pushes hroom nnn⟩
  · exact ⟨callWithin Config.stackDepth nnn s, rfl, callWithin_pushes hroom nnn⟩

/-- Settles O26: one write to `pc` of a sum that fits 16 bits. -/
theorem jpV0AddsWithoutTruncation : Obligations.JpV0AddsWithoutTruncation := by
  unfold Obligations.JpV0AddsWithoutTruncation
  intro nnn s
  have hd : decodeWord (formAddr 0xB#4 nnn) = .instr (.jpV0 nnn) := by simp [decodeWord]
  exact ⟨hd, s.setPc (zext12 nnn + zext8 (s.reg 0)), rfl, zext12_add_zext8_toNat nnn _, setPc_onlyChanges s _⟩

/-- Settles O27: all four are skips on an equality of two bytes, SNE on its negation. -/
theorem compareSkipsAdvanceByTwo : Obligations.CompareSkipsAdvanceByTwo := by
  unfold Obligations.CompareSkipsAdvanceByTwo
  intro x y nn s
  have hseImm : decodeWord (formXNN 0x3#4 x nn) = .instr (.seImm x nn) := by simp [decodeWord]
  have hsneImm : decodeWord (formXNN 0x4#4 x nn) = .instr (.sneImm x nn) := by simp [decodeWord]
  have hseReg : decodeWord (formXYN 0x5#4 x y 0x0#4) = .instr (.seReg x y) := by simp [decodeWord, decodeFamily5]
  have hsneReg : decodeWord (formXYN 0x9#4 x y 0x0#4) = .instr (.sneReg x y) := by simp [decodeWord, decodeFamily9]
  exact ⟨⟨hseImm, _, rfl, skipIf_beq_pc _ _ s, skipIf_onlyChanges _ s⟩,
    ⟨hsneImm, _, rfl, skipIf_bne_pc _ _ s, skipIf_onlyChanges _ s⟩,
    ⟨hseReg, _, rfl, skipIf_beq_pc _ _ s, skipIf_onlyChanges _ s⟩,
    ⟨hsneReg, _, rfl, skipIf_bne_pc _ _ s, skipIf_onlyChanges _ s⟩⟩

/-- Settles O28: the fault is raised after the tick and the advance, and a raise writes the latch only. -/
theorem invalidWordHalts : Obligations.InvalidWordHalts := by
  unfold Obligations.InvalidWordHalts
  intro s hrun hpc hd
  refine ⟨_, step_of_invalid hrun hpc hd, raise_advance_tick_halt s _, rfl, ticked_of_timers rfl rfl, ?_⟩
  apply onlyChanges_of <;> simp

end Sys2Proof.Machine
end

section
/-! Precise faults (60_exceptions.md R174). Every dispatch of the machine changes the latch by a raise only, so a cycle that
ends with a record in `halt` ends in one of two states: the fetch fault's, taken after the tick, or a raise after the tick and
the advance. R174 is read off these two. -/
namespace Sys2Proof.Machine

/-! ## What can set the latch -/

/-- R174: the one way the dispatch `run` changes the latch is a raise, which is then all it does. -/
def FaultsOnlyByRaise (run : Instr → State → Host.Outcome State Fault Refusal) : Prop :=
  ∀ (i : Instr) (s t : State), run i s = .next t → t.halt = s.halt ∨ ∃ k, t = raise s k

/-- R172: a dispatch that takes the faults of the rule's table, and otherwise leaves the latch, faults only by a raise. -/
theorem faultsOnlyByRaise_of_instrFault {run : Instr → State → Host.Outcome State Fault Refusal} {P : Config.Params}
    (hfault : ∀ {i s k}, instrFault P i s = some k → run i s = .next (raise s k))
    (hnoFault : ∀ {i s}, instrFault P i s = none → ∃ t, run i s = .next t ∧ t.halt = s.halt) : FaultsOnlyByRaise run := by
  intro i s t h
  cases hf : instrFault P i s with
  | some k =>
    cases (hfault hf).symm.trans h
    exact .inr ⟨k, rfl⟩
  | none =>
    obtain ⟨u, hu, hhalt⟩ := hnoFault hf
    cases hu.symm.trans h
    exact .inl hhalt

theorem exec_faultsOnlyByRaise : FaultsOnlyByRaise exec :=
  faultsOnlyByRaise_of_instrFault exec_of_fault exec_of_noFault

theorem execWith_faultsOnlyByRaise (P : Config.Params) (answer : Byte) : FaultsOnlyByRaise (execWith P answer) :=
  faultsOnlyByRaise_of_instrFault execWith_of_fault execWith_of_noFault

/-- R90, R174: the two states in which a cycle of a running machine can end with a record. -/
theorem eq_raise_of_cycle_halts {run : Instr → State → Host.Outcome State Fault Refusal} (hrun : FaultsOnlyByRaise run)
    {s t : State} {f : FaultRecord} (hs : s.halt = none) (h : cycle run s = .next t) (hf : t.halt = some f) :
    (4095 ≤ s.pc.toNat ∧ t = raiseAtFetch (tick s)) ∨
    (s.pc.toNat < 4095 ∧ ∃ k, t = raise (advance (tick s)) k) := by
  obtain ⟨g, hg, -⟩ | ⟨-, hpc, e⟩ | ⟨-, hpc, -, e⟩ | ⟨i, -, hpc, -, e⟩ := cycle_cases run s
  · simp [hs] at hg
  · cases e.symm.trans h
    exact .inl ⟨by omega, rfl⟩
  · cases e.symm.trans h
    exact .inr ⟨by omega, _, rfl⟩
  · obtain hhalt | hraise := hrun i _ t (e.symm.trans h)
    · rw [hf, advance_halt, tick_halt, hs] at hhalt
      cases hhalt
    · exact .inr ⟨by omega, hraise⟩

/-! ## What the two states keep -/

theorem raiseAtFetch_tick_onlyChanges (s : State) : OnlyChanges [.dt, .st, .halt] s (raiseAtFetch (tick s)) := by
  rw [raiseAtFetch, latchFault]
  apply onlyChanges_of <;> simp

theorem raise_advance_tick_onlyChanges (s : State) (k : Fault) :
    OnlyChanges [.pc, .dt, .st, .halt] s (raise (advance (tick s)) k) := by
  apply onlyChanges_of <;> simp

theorem onlyChanges_mono {cs ds : List Component} {s t : State} (hsub : cs ⊆ ds) (h : OnlyChanges cs s t) :
    OnlyChanges ds s t :=
  fun c hc => h c fun hmem => hc (hsub hmem)

/-! ## The obligation -/

/-- Settles O38: the step and every cycle are cycles of a dispatch that faults only by a raise, and the bound 4095 tells the
fetch fault from a raise after the advance. -/
theorem faultsArePrecise : Obligations.FaultsArePrecise := by
  unfold Obligations.FaultsArePrecise
  intro s t f hs hstep hf
  have hcycle : ∃ run, FaultsOnlyByRaise run ∧ cycle run s = .next t := by
    obtain h | ⟨P, b, h⟩ := hstep
    · exact ⟨exec, exec_faultsOnlyByRaise, h⟩
    · exact ⟨execWith P b, execWith_faultsOnlyByRaise P b, h⟩
  obtain ⟨run, hrun, h⟩ := hcycle
  obtain ⟨hpc, rfl⟩ | ⟨hpc, k, rfl⟩ := eq_raise_of_cycle_halts hrun hs h hf
  · obtain rfl : ⟨.boundsViolation, s.pc, 0⟩ = f := Option.some.inj hf
    exact ⟨rfl, ticked_of_timers rfl rfl, fun _ => ⟨rfl, rfl⟩, fun hlt => absurd hpc (Nat.not_le.2 hlt),
      onlyChanges_mono (by simp) (raiseAtFetch_tick_onlyChanges s)⟩
  · rw [raise_advance_tick_halt] at hf
    obtain rfl := Option.some.inj hf
    exact ⟨rfl, ticked_of_timers rfl rfl, fun hge => absurd hge (Nat.not_le.2 hpc), fun _ => ⟨rfl, rfl⟩,
      raise_advance_tick_onlyChanges s k⟩

end Sys2Proof.Machine
end

section
/-! Host events between cycles (60_exceptions.md R182 to R187): the two key events write one bit of KEYS, the Dirty query
writes `dirty`, and the other three reads leave the block as it is. -/
namespace Sys2Proof.Machine

/-! ## Key events (R182, R183) -/

/-- R190: a key event with an index below 16 is accepted. -/
theorem respondKey_of_lt (f : Nat → Elements → Elements) {k : Nat} (hk : k < 16) (p : Phase) (e : Elements) :
    respondKey f k p e = .next (.live p (f k e), .done) := by
  rw [respondKey, if_pos ((keyIndexOk_iff k).2 hk)]

theorem keyPressEvent_getLsbD {k : Nat} (hk : k < 16) (e : Elements) (j : Nat) :
    (keyPressEvent k e).keys.getLsbD j = if j = k then true else e.keys.getLsbD j := by
  rw [keyPressEvent, BitVec.getLsbD_or, BitVec.getLsbD_twoPow]
  split_ifs with hj
  · simp [hj, hk]
  · simp [Ne.symm hj]

theorem keyReleaseEvent_getLsbD (k : Nat) (e : Elements) (j : Nat) :
    (keyReleaseEvent k e).keys.getLsbD j = if j = k then false else e.keys.getLsbD j := by
  rw [keyReleaseEvent, BitVec.getLsbD_and, BitVec.getLsbD_not, BitVec.getLsbD_twoPow]
  split_ifs with hj
  · by_cases hk : k < 16 <;> simp [hj, hk]
  · by_cases hlt : j < 16
    · simp [Ne.symm hj, hlt]
    · simp [BitVec.getLsbD_of_ge _ j (Nat.le_of_not_lt hlt)]

theorem keyPressEvent_onlyElementsChange (k : Nat) (e : Elements) : OnlyElementsChange [.keys] e (keyPressEvent k e) := by
  rw [keyPressEvent]
  apply onlyElementsChange_of <;> simp

theorem keyReleaseEvent_onlyElementsChange (k : Nat) (e : Elements) :
    OnlyElementsChange [.keys] e (keyReleaseEvent k e) := by
  rw [keyReleaseEvent]
  apply onlyElementsChange_of <;> simp

/-- Settles O55: both events write bit `k` of KEYS, and neither reads the phase or the latch. -/
theorem keyEventsSetAndClearOneBit : Obligations.KeyEventsSetAndClearOneBit := by
  unfold Obligations.KeyEventsSetAndClearOneBit
  intro P a k p e hk
  refine ⟨⟨keyPressEvent k e, respondKey_of_lt keyPressEvent hk p e, ?_, fun j hj => ?_,
      keyPressEvent_onlyElementsChange k e⟩,
    ⟨keyReleaseEvent k e, respondKey_of_lt keyReleaseEvent hk p e, ?_, fun j hj => ?_,
      keyReleaseEvent_onlyElementsChange k e⟩⟩
  · rw [keyPressEvent_getLsbD hk, if_pos rfl]
  · rw [keyPressEvent_getLsbD hk, if_neg hj]
  · rw [keyReleaseEvent_getLsbD, if_pos rfl]
  · rw [keyReleaseEvent_getLsbD, if_neg hj]

/-! ## The host's reads (R184 to R187) -/

theorem dirtyQueryEvent_onlyElementsChange (e : Elements) : OnlyElementsChange [.dirty] e (dirtyQueryEvent e).2 := by
  rw [dirtyQueryEvent]
  apply onlyElementsChange_of <;> simp

/-- Settles O56: the answer's grid is that of the display, whose length and order `grid_spec` gives. -/
theorem displayReadIsRowMajor : Obligations.DisplayReadIsRowMajor := by
  unfold Obligations.DisplayReadIsRowMajor
  intro P a p e
  exact ⟨e.disp.grid, rfl, grid_spec e.disp⟩

/-- Settles O57: the three answers are the events' own definitions; the Dirty query's frame is the one write to `dirty`. -/
theorem hostReadsReportState : Obligations.HostReadsReportState := by
  unfold Obligations.HostReadsReportState
  intro P a p e
  exact ⟨⟨(dirtyQueryEvent e).2, rfl, rfl, dirtyQueryEvent_onlyElementsChange e⟩, rfl, rfl⟩

end Sys2Proof.Machine
end

section
/-! Load (70_reset_and_hazards.md R202): two runs of bytes written to memory, the font below the program start and the image
from there, so neither covers the other. -/
namespace Sys2Proof.Machine

/-! ## Memory after a run of writes -/

/-- R53: byte `k` of a run stands `k` above its start. -/
theorem read_writeList_of_lt {m : Memory} {a : Nat} {bs : List Byte} (hw : m.wf = true)
    (hb : a + bs.length ≤ Config.memSize) {k : Nat} (hk : k < bs.length) :
    some ((m.writeList a bs).read (a + k)) = bs[k]? := by
  rw [Memory.read_writeList bs hw hb, if_pos (by omega), Nat.add_sub_cancel_left, List.getD_eq_getElem _ _ hk,
    List.getElem?_eq_getElem hk]

theorem read_writeList_outside {m : Memory} {a : Nat} {bs : List Byte} (hw : m.wf = true)
    (hb : a + bs.length ≤ Config.memSize) {c : Nat} (hc : c < a ∨ a + bs.length ≤ c) :
    (m.writeList a bs).read c = m.read c := by
  rw [Memory.read_writeList bs hw hb, if_neg (by omega)]

/-! ## The two ranges of Load -/

/-- R6: the font ends at or below the program start, so within memory. -/
theorem font_fits {P : Config.Params} (hP : paramsOk P = true) : P.fontBase + P.fontData.length ≤ Config.memSize := by
  obtain ⟨hbase, hlen⟩ := (paramsOk_iff P).1 hP
  simp only [Config.memSize]
  omega

/-- R203 (b): the longest image ends where memory does. -/
theorem image_fits {img : List Byte} (hi : img.length ≤ 3584) : Config.programStart + img.length ≤ Config.memSize := by
  simp only [Config.programStart, Config.memSize]
  omega

theorem writeFont_wf {P : Config.Params} {m : Memory} (hP : paramsOk P = true) (hw : m.wf = true) :
    (m.writeList P.fontBase P.fontData).wf = true :=
  Memory.wf_writeList P.fontData hw (font_fits hP)

/-! ## What Load leaves -/

/-- R203: Load of an image that fits is accepted by a block fresh after Reset. -/
theorem respond_load_of_fresh (P : Config.Params) (a : Byte) {img : List Byte} (e : Elements) (hi : img.length ≤ 3584) :
    respond P a (.load img) (.live .fresh e) = .next (.live .loaded (loadEvent P img e), .done) :=
  if_pos ((imageOk_iff img).2 hi)

theorem loadEvent_onlyElementsChange (P : Config.Params) (img : List Byte) (e : Elements) :
    OnlyElementsChange [.mem] e (loadEvent P img e) := by
  rw [loadEvent]
  apply onlyElementsChange_of <;> simp

section
variable {P : Config.Params} {img : List Byte} {e : Elements}

theorem read_loadEvent_image (hP : paramsOk P = true) (hw : e.mem.wf = true) (hi : img.length ≤ 3584) {k : Nat}
    (hk : k < img.length) : some ((loadEvent P img e).mem.read (Config.programStart + k)) = img[k]? :=
  read_writeList_of_lt (writeFont_wf hP hw) (image_fits hi) hk

/-- R6, R202: no byte of the font lies at or above the program start, so the image leaves it as written. -/
theorem read_loadEvent_font (hP : paramsOk P = true) (hw : e.mem.wf = true) (hi : img.length ≤ 3584) {k : Nat}
    (hk : k < 80) : some ((loadEvent P img e).mem.read (P.fontBase + k)) = P.fontData[k]? := by
  obtain ⟨hbase, hlen⟩ := (paramsOk_iff P).1 hP
  have hbelow : P.fontBase + k < Config.programStart := by
    simp only [Config.programStart]
    omega
  rw [loadEvent, read_writeList_outside (writeFont_wf hP hw) (image_fits hi) (.inl hbelow)]
  exact read_writeList_of_lt hw (font_fits hP) (by omega)

theorem read_loadEvent_outside (hP : paramsOk P = true) (hw : e.mem.wf = true) (hi : img.length ≤ 3584) {b : Nat}
    (hfont : b < P.fontBase ∨ P.fontBase + 80 ≤ b)
    (himg : b < Config.programStart ∨ Config.programStart + img.length ≤ b) :
    (loadEvent P img e).mem.read b = e.mem.read b := by
  obtain ⟨-, hlen⟩ := (paramsOk_iff P).1 hP
  rw [loadEvent, read_writeList_outside (writeFont_wf hP hw) (image_fits hi) himg,
    read_writeList_outside hw (font_fits hP) (by rwa [hlen])]

end

/-- Settles O53: Load leaves `loadEvent P img e`, which differs in memory alone; its bytes are read off the two runs. -/
theorem loadCopiesFontAndImage : Obligations.LoadCopiesFontAndImage := by
  unfold Obligations.LoadCopiesFontAndImage
  intro P a img e hP hw hi
  exact ⟨loadEvent P img e, respond_load_of_fresh P a e hi, fun _ hk => read_loadEvent_image hP hw hi hk,
    fun _ hk => read_loadEvent_font hP hw hi hk, fun _ hfont himg => read_loadEvent_outside hP hw hi hfont himg,
    loadEvent_onlyElementsChange P img e⟩

end Sys2Proof.Machine
end

section
/-! The decoder and the encoder (30_encoding.md R81): each format of an encoded instruction is read back field by field, and a
word that decodes is the instruction's own word but for the nibble 2 that a shift drops (R79). -/
namespace Sys2Proof

/-! ## Decoding an encoded instruction -/

/-- R72, R75: the decoder reads the fields back that the encoder's formats put together. -/
theorem decodeWord_encode (i : Instr) : decodeWord (encode i) = .instr i := by
  cases i with
  | cls | ret => decide
  | jp nnn | call nnn | ldI nnn | jpV0 nnn => simp [encode, decodeWord]
  | seImm x nn | sneImm x nn | ldImm x nn | addImm x nn | rnd x nn => simp [encode, decodeWord]
  | drw x y n => simp [encode, decodeWord]
  | seReg x y => simp [encode, decodeWord, decodeFamily5]
  | sneReg x y => simp [encode, decodeWord, decodeFamily9]
  | ldReg x y | or x y | and x y | xor x y | addReg x y | subReg x y | subn x y | shr x | shl x =>
    simp [encode, decodeWord_formXYN_eight, decodeFamily8]
  | skp x | sknp x => simp [encode, decodeWord_formXNN_fourteen, decodeFamilyE]
  | ldVxDt x | ldVxK x | ldDtVx x | ldStVx x | addI x | ldF x | ldB x | storeRegs x | loadRegs x =>
    simp [encode, decodeWord_formXNN_fifteen, decodeFamilyF]

/-- R55: two bytes whose word decodes are decoded, whatever follows them. -/
theorem decodeBytes_of_decodeWord {hi lo : Byte} {i : Instr} (h : decodeWord (wordOfBytes hi lo) = .instr i)
    (rest : List Byte) : decodeBytes (hi :: lo :: rest) = .ok i rest := by
  simp only [decodeBytes, h]

/-- R55: the word of two bytes that are decoded, with what follows them left over. -/
theorem decodeWord_of_decodeBytes {hi lo : Byte} {i : Instr} {rest rest' : List Byte}
    (h : decodeBytes (hi :: lo :: rest) = .ok i rest') : decodeWord (wordOfBytes hi lo) = .instr i := by
  cases hd : decodeWord (wordOfBytes hi lo) with
  | instr j =>
    rw [decodeBytes_of_decodeWord hd] at h
    cases h
    rfl
  | invalid => simp [decodeBytes, hd] at h

/-- Settles O30: the word is read back format by format, and its two bytes are that word. -/
theorem decodeUndoesEncode : Obligations.DecodeUndoesEncode := by
  unfold Obligations.DecodeUndoesEncode
  intro i rest
  have hword : decodeWord (wordOfBytes (highByte (encode i)) (lowByte (encode i))) = .instr i := by
    rw [wordOfBytes_highByte_lowByte, decodeWord_encode]
  exact ⟨decodeWord_encode i, decodeBytes_of_decodeWord hword rest⟩

/-! ## Encoding a decoded word -/

/-- R72: the mask 0xFF0F clears nibble 2 and keeps the others. -/
theorem and_maskNoY (w : Word) : w &&& 0xFF0F = formXYN (fieldOp w) (fieldX w) 0 (fieldN w) := by
  apply BitVec.eq_of_getLsbD_eq
  intro k hk
  simp only [fieldOp, fieldX, fieldN, formXYN, BitVec.getLsbD_extractLsb', BitVec.getLsbD_append, BitVec.getLsbD_and]
  interval_cases k <;> simp

/-- R79: what the mask leaves of a word of format XYN. -/
theorem formXYN_and_maskNoY (op x y n : Nibble) : formXYN op x y n &&& 0xFF0F = formXYN op x 0 n := by
  rw [and_maskNoY, fieldOp_formXYN, fieldX_formXYN, fieldN_formXYN]

/-- R81: a word that decodes to no shift is its instruction's own word. -/
theorem encode_of_decodeWord {w : Word} {i : Instr} (hd : decodeWord w = .instr i)
    (hi : ∀ x, i ≠ .shr x ∧ i ≠ .shl x) : encode i = w := by
  obtain rfl | ⟨x, y, rfl, -⟩ | ⟨x, y, rfl, -⟩ := decodeWord_inv hd
  · rfl
  · exact absurd rfl (hi x).1
  · exact absurd rfl (hi x).2

/-- R79, R81: a word that decodes to a shift is the shift's own word but for nibble 2. -/
theorem encode_of_decodeWord_shift {w : Word} {i : Instr} (hd : decodeWord w = .instr i)
    (hi : ∃ x, i = .shr x ∨ i = .shl x) : encode i = w &&& 0xFF0F := by
  obtain rfl | ⟨x, y, rfl, rfl⟩ | ⟨x, y, rfl, rfl⟩ := decodeWord_inv hd
  · obtain ⟨x, rfl | rfl⟩ := hi <;> exact (formXYN_and_maskNoY ..).symm
  · exact (formXYN_and_maskNoY ..).symm
  · exact (formXYN_and_maskNoY ..).symm

/-- Settles O31: the two clauses are the decoder's inversion without and with a dropped nibble 2. -/
theorem encodeUndoesDecode : Obligations.EncodeUndoesDecode := by
  unfold Obligations.EncodeUndoesDecode
  intro w i hd
  exact ⟨encode_of_decodeWord hd, encode_of_decodeWord_shift hd⟩

/-- Settles O29: the decoder is run on each of the twenty-six words. -/
theorem writtenOutWordsDecode : Obligations.WrittenOutWordsDecode := by
  unfold Obligations.WrittenOutWordsDecode
  decide

end Sys2Proof
end

section
/-! What an instruction can do, read off component by component (40_engine_cycle.md R92): the components it may write at all,
the registers among them (10_state.md R22), and where it leaves `pc` (R25). The frame is proved once for every instruction;
the tables about single components cite it for the instructions that do not write the component. -/
namespace Sys2Proof.Machine

/-! ## Frames of the operations that can take a fault -/

theorem raise_onlyChanges (s : State) (k : Fault) : OnlyChanges [.halt] s (raise s k) :=
  (raise_raises s k).2

theorem storeAtI_frame (bs : List Byte) (s : State) : OnlyChanges [.mem, .halt] s (storeAtI bs s) := by
  obtain ⟨hb, -⟩ | ⟨-, e⟩ := storeAtI_cases bs s
  · exact onlyChanges_mono (by simp) (storeAtI_onlyChanges hb)
  · exact e ▸ onlyChanges_mono (by simp) (raise_onlyChanges s _)

theorem callWithin_frame (capacity : Option Nat) (nnn : Addr12) (s : State) :
    OnlyChanges [.pc, .stack, .halt] s (callWithin capacity nnn s) := by
  obtain ⟨-, e⟩ | ⟨-, e⟩ := callWithin_cases capacity nnn s
  · exact e ▸ onlyChanges_mono (by simp) (setStack_setPc_onlyChanges s _ _)
  · exact e ▸ onlyChanges_mono (by simp) (raise_onlyChanges s _)

theorem execRet_frame {s t : State} (h : execRet s = .next t) : OnlyChanges [.pc, .stack, .halt] s t := by
  obtain ⟨w, ws, -, e⟩ | ⟨-, e⟩ := execRet_cases s <;> cases e.symm.trans h
  · exact onlyChanges_mono (by simp) (setStack_setPc_onlyChanges s ws w)
  · exact onlyChanges_mono (by simp) (raise_onlyChanges s _)

theorem execDrw_frame {x y n : Nibble} {s t : State} (h : execDrw x y n s = .next t) :
    OnlyChanges [.v, .disp, .dirty, .halt] s t := by
  obtain ⟨-, e⟩ | ⟨-, e⟩ := execDrw_cases x y n s <;> cases e.symm.trans h
  · exact onlyChanges_mono (by simp) (drawn_onlyChanges x y n s)
  · exact onlyChanges_mono (by simp) (raise_onlyChanges s _)

theorem execLoadRegs_frame {x : Nibble} {s t : State} (h : execLoadRegs x s = .next t) :
    OnlyChanges [.v, .halt] s t := by
  obtain ⟨-, e⟩ | ⟨-, e⟩ := execLoadRegs_cases x s <;> cases e.symm.trans h
  · exact onlyChanges_mono (by simp) (setRegs_onlyChanges s 0 _)
  · exact onlyChanges_mono (by simp) (raise_onlyChanges s _)

/-- R145: what LD Vx, K answers. -/
theorem execLdVxK_cases (x : Nibble) (s : State) :
    (s.keys = 0 ∧ execLdVxK x s = .next (s.setPc (s.pc - 2))) ∨
    (s.keys ≠ 0 ∧ ∃ b, execLdVxK x s = .next (s.setReg x b)) := by
  by_cases h : s.keys = 0
  · exact .inl ⟨h, exec_ldVxK_of_no_key x h⟩
  · obtain ⟨k, -, e, -⟩ := exec_ldVxK_of_pressed x h
    exact .inr ⟨h, _, e⟩

theorem setReg_onlyChanges (s : State) (x : Nibble) (b : Byte) : OnlyChanges [.v] s (s.setReg x b) :=
  (setReg_onlyRegsChange s b (List.mem_singleton_self x)).1

theorem execLdVxK_frame {x : Nibble} {s t : State} (h : execLdVxK x s = .next t) : OnlyChanges [.v, .pc] s t := by
  obtain ⟨-, e⟩ | ⟨-, b, e⟩ := execLdVxK_cases x s <;> cases e.symm.trans h
  · exact onlyChanges_mono (by simp) (setPc_onlyChanges s _)
  · exact onlyChanges_mono (by simp) (setReg_onlyChanges s x b)

theorem rndFrom_drawByte_onlyChanges (x : Nibble) (nn : Byte) (s : State) :
    OnlyChanges [.v, .draws] s (rndFrom (drawByte s).1 x nn (drawByte s).2) := by
  rw [rndFrom, drawByte]
  apply onlyChanges_of <;> simp

theorem setDt_onlyChanges (s : State) (b : Byte) : OnlyChanges [.dt] s (s.setDt b) := by
  apply onlyChanges_of <;> simp

theorem setSt_onlyChanges (s : State) (b : Byte) : OnlyChanges [.st] s (s.setSt b) := by
  apply onlyChanges_of <;> simp

/-! ## The components an instruction may write -/

/-- R92: the components an instruction's rule mentions, `halt` for those that can take a fault. -/
def writes : Instr → List Component
  | .cls => [.disp, .dirty]
  | .ret | .call _ => [.pc, .stack, .halt]
  | .jp _ | .jpV0 _ | .seImm _ _ | .sneImm _ _ | .seReg _ _ | .sneReg _ _ | .skp _ | .sknp _ => [.pc]
  | .ldImm _ _ | .addImm _ _ | .ldReg _ _ | .or _ _ | .and _ _ | .xor _ _ | .addReg _ _ | .subReg _ _ | .subn _ _
  | .shr _ | .shl _ | .ldVxDt _ => [.v]
  | .rnd _ _ => [.v, .draws]
  | .ldVxK _ => [.v, .pc]
  | .loadRegs _ => [.v, .halt]
  | .drw _ _ _ => [.v, .disp, .dirty, .halt]
  | .ldI _ | .addI _ | .ldF _ => [.i]
  | .ldB _ | .storeRegs _ => [.mem, .halt]
  | .ldDtVx _ => [.dt]
  | .ldStVx _ => [.st]

/-- R92: an instruction changes no component that its rule does not mention. -/
theorem exec_frame {i : Instr} {s t : State} (h : exec i s = .next t) : OnlyChanges (writes i) s t := by
  cases i with
  | cls => cases h; exact setDisplay_onlyChanges s _ _
  | ret => exact execRet_frame h
  | call nnn => cases h; exact callWithin_frame _ nnn s
  | jp nnn | jpV0 nnn => cases h; exact setPc_onlyChanges s _
  | seImm x nn | sneImm x nn | seReg x y | sneReg x y | skp x | sknp x => cases h; exact skipIf_onlyChanges _ s
  | ldImm x nn | addImm x nn | ldReg x y | ldVxDt x => cases h; exact setReg_onlyChanges s x _
  | or x y | and x y | xor x y | addReg x y | subReg x y | subn x y =>
    cases h; exact (resultThenFlag_onlyRegsChange s x _ _).1
  | shr x | shl x => cases h; exact (flagThenShift_onlyRegsChange s x _ _).1
  | rnd x nn => cases h; exact rndFrom_drawByte_onlyChanges x nn s
  | ldVxK x => exact execLdVxK_frame h
  | loadRegs x => exact execLoadRegs_frame h
  | drw x y n => exact execDrw_frame h
  | ldI nnn | addI x | ldF x => cases h; exact setI_onlyChanges s _
  | ldB x | storeRegs x => cases h; exact storeAtI_frame _ s
  | ldDtVx x => cases h; exact setDt_onlyChanges s _
  | ldStVx x => cases h; exact setSt_onlyChanges s _

/-- R92, for every parameter: an instruction changes no component that its rule does not mention. -/
theorem execWith_frame {P : Config.Params} {b : Byte} {i : Instr} {s t : State}
    (h : execWith P b i s = .next t) : OnlyChanges (writes i) s t := by
  obtain ⟨nnn, rfl, e⟩ | ⟨x, rfl, e⟩ | ⟨x, nn, rfl, e⟩ | e := execWith_cases P b i s
  · cases e.symm.trans h
    exact callWithin_frame P.stackDepth nnn s
  · cases e.symm.trans h
    exact setI_onlyChanges s _
  · cases e.symm.trans h
    exact onlyChanges_mono (by simp [writes]) (setReg_onlyChanges s x _)
  · obtain ⟨hs, -⟩ := e s
    exact exec_frame (hs.symm.trans h)

/-- The frame without the registers, `pc` and `halt` is the rules' own table. -/
theorem writes_subset_mayChange (i : Instr) : writes i ⊆ [.v, .pc, .halt] ++ mayChange i := by
  cases i <;> simp [writes, mayChange]

/-- Settles O39: the table names every component that an instruction's frame leaves open. -/
theorem componentsChangeOnlyByTheirInstructions : Obligations.ComponentsChangeOnlyByTheirInstructions := by
  unfold Obligations.ComponentsChangeOnlyByTheirInstructions
  intro i s t h
  exact onlyChanges_mono (writes_subset_mayChange i) (exec_frame h)

/-! ## Registers (R22) -/

section
variable {s t : State} {k : Nibble}

theorem resultThenFlag_reg_other {x : Nibble} (r f : Byte) (hx : (k == x) = false) (hf : k ≠ vf) :
    (resultThenFlag s x r f).reg k = s.reg k :=
  (resultThenFlag_onlyRegsChange s x r f).2 k (by simpa [hf] using hx)

theorem flagThenShift_reg_other {x : Nibble} (f : Byte) (sh : Byte → Byte) (hx : (k == x) = false) (hf : k ≠ vf) :
    (flagThenShift s x f sh).reg k = s.reg k :=
  (flagThenShift_onlyRegsChange s x f sh).2 k (by simpa [hf] using hx)

theorem execDrw_reg_other {x y n : Nibble} (h : execDrw x y n s = .next t) (hf : k ≠ vf) : t.reg k = s.reg k := by
  obtain ⟨-, e⟩ | ⟨-, e⟩ := execDrw_cases x y n s <;> cases e.symm.trans h
  · exact drawn_reg_ne x y n s hf
  · rfl

theorem execLoadRegs_reg_other {x : Nibble} (h : execLoadRegs x s = .next t) (hk : x.toNat < k.toNat) :
    t.reg k = s.reg k := by
  obtain ⟨-, e⟩ | ⟨-, e⟩ := execLoadRegs_cases x s <;> cases e.symm.trans h
  · rw [reg_setRegs_readList, if_neg (Nat.not_le.2 hk)]
  · rfl

theorem execLdVxK_reg_other {x : Nibble} (h : execLdVxK x s = .next t) (hx : (k == x) = false) :
    t.reg k = s.reg k := by
  obtain ⟨-, e⟩ | ⟨-, b, e⟩ := execLdVxK_cases x s <;> cases e.symm.trans h
  · rfl
  · exact reg_setReg_ne s x k b (by simpa using hx)

end

/-- R22: a register other than the destination is kept, and VF too by an instruction that writes no flag. -/
theorem exec_reg_other {i : Instr} {s t : State} {k : Nibble} (h : exec i s = .next t) (hd : destRegs i k = false)
    (hf : k = vf → writesFlag i = false) : t.reg k = s.reg k := by
  have hflag (hw : writesFlag i = true) : k ≠ vf := fun hk => by simp [hf hk] at hw
  by_cases hv : .v ∈ writes i
  · cases i with
    | ldImm x nn | addImm x nn | ldReg x y | ldVxDt x | rnd x nn =>
      cases h; exact reg_setReg_ne _ _ _ _ (by simpa [destRegs] using hd)
    | or x y | and x y | xor x y | addReg x y | subReg x y | subn x y =>
      cases h; exact resultThenFlag_reg_other _ _ hd (hflag rfl)
    | shr x | shl x => cases h; exact flagThenShift_reg_other _ _ hd (hflag rfl)
    | ldVxK x => exact execLdVxK_reg_other h hd
    | loadRegs x => exact execLoadRegs_reg_other h (by simpa [destRegs] using hd)
    | drw x y n => exact execDrw_reg_other h (hflag rfl)
    | _ => simp [writes] at hv
  · exact exec_frame h .v hv k

/-- Settles O40: the instructions that write registers split into plain writes, results with a flag, shifts, loads and
draws; the frame covers the others. -/
theorem registersChangeOnlyAsDestinationOrFlag : Obligations.RegistersChangeOnlyAsDestinationOrFlag := by
  unfold Obligations.RegistersChangeOnlyAsDestinationOrFlag
  intro i s t k h hd hf
  exact exec_reg_other h hd hf

/-! ## The program counter (R25) -/

theorem zext12_eq_ofNat (nnn : Addr12) : zext12 nnn = BitVec.ofNat 16 nnn.toNat :=
  BitVec.eq_of_toNat_eq (by rw [zext12_toNat, BitVec.toNat_ofNat, Nat.mod_eq_of_lt (by have := nnn.isLt; omega)])

theorem zext12_add_zext8_eq_ofNat (nnn : Addr12) (b : Byte) :
    zext12 nnn + zext8 b = BitVec.ofNat 16 (nnn.toNat + b.toNat) := by
  have hn := nnn.isLt
  have hb := b.isLt
  apply BitVec.eq_of_toNat_eq
  rw [zext12_add_zext8_toNat, BitVec.toNat_ofNat, Nat.mod_eq_of_lt (by omega)]

theorem callWithin_pc (capacity : Option Nat) (nnn : Addr12) (s : State) : (callWithin capacity nnn s).pc =
    if capacity = some s.stack.length then s.pc else BitVec.ofNat 16 nnn.toNat := by
  obtain ⟨hroom, e⟩ | ⟨hfull, e⟩ := callWithin_cases capacity nnn s
  · rw [e, if_neg hroom, State.setPc_pc, zext12_eq_ofNat]
  · rw [e, if_pos hfull, raise_pc]

theorem execRet_pc {s t : State} (h : execRet s = .next t) : t.pc = s.stack.headD s.pc := by
  obtain ⟨w, ws, hs, e⟩ | ⟨hs, e⟩ := execRet_cases s <;> cases e.symm.trans h <;> rw [hs] <;> rfl

theorem execLdVxK_pc {x : Nibble} {s t : State} (h : execLdVxK x s = .next t) :
    t.pc = if s.keys = 0 then s.pc - 2 else s.pc := by
  obtain ⟨hk, e⟩ | ⟨hk, b, e⟩ := execLdVxK_cases x s <;> cases e.symm.trans h
  · rw [if_pos hk, State.setPc_pc]
  · rw [if_neg hk, State.setReg_pc]

theorem pcAfter_of_not_writes {i : Instr} (h : .pc ∉ writes i) (s : State) : pcAfter i s = s.pc := by
  revert h
  cases i <;> simp [writes, pcAfter]

/-- R25: where an instruction leaves `pc`. -/
theorem exec_pc {i : Instr} {s t : State} (h : exec i s = .next t) : t.pc = pcAfter i s := by
  by_cases hpc : .pc ∈ writes i
  · cases i with
    | jp nnn => cases h; exact zext12_eq_ofNat nnn
    | jpV0 nnn => cases h; exact zext12_add_zext8_eq_ofNat nnn _
    | call nnn => cases h; exact callWithin_pc _ nnn s
    | ret => exact execRet_pc h
    | seImm x nn | seReg x y => cases h; exact skipIf_beq_pc _ _ s
    | sneImm x nn | sneReg x y => cases h; exact skipIf_bne_pc _ _ s
    | skp x => cases h; rw [skipIf_pc, isPressed_lowNibble, pcAfter]
    | sknp x => cases h; rw [skipIf_not_pc, isPressed_lowNibble, pcAfter]
    | ldVxK x => exact execLdVxK_pc h
    | _ => simp [writes] at hpc
  · exact (exec_frame h .pc hpc).trans (pcAfter_of_not_writes hpc s).symm

/-- Settles O41: the instructions that write `pc` one by one; the frame covers the others. -/
theorem pcAfterEachInstruction : Obligations.PcAfterEachInstruction := by
  unfold Obligations.PcAfterEachInstruction
  intro i s t h
  exact exec_pc h

end Sys2Proof.Machine
end

section
/-! The cycle (40_engine_cycle.md R90 to R92) for any dispatch: what comes before the dispatch is the same for `exec` and for
`execWith P b`, so each fact about a cycle is proved once for both. The faults are those of R172's table, and the timers tick
before the fetch. -/
namespace Sys2Proof.Machine

/-! ## The three cycles of a running machine -/

section
variable (run : Instr → State → Host.Outcome State Fault Refusal) {s : State}

/-- R90 step 2: a fetch past the end of memory. -/
theorem cycle_of_past (hrun : s.halt = none) (hpc : 4095 ≤ s.pc.toNat) :
    cycle run s = .next (raiseAtFetch (tick s)) := by
  obtain ⟨f, hf, -⟩ | ⟨-, -, e⟩ | ⟨-, hin, -⟩ | ⟨i, -, hin, -⟩ := cycle_cases run s
  · simp [hrun] at hf
  · exact e
  · omega
  · omega

/-- R159: a word that decodes to `Invalid`. -/
theorem cycle_of_invalid (hrun : s.halt = none) (hpc : s.pc.toNat + 2 ≤ 4096)
    (hd : decodeWord (wordAt s s.pc) = .invalid) : cycle run s = .next (raise (advance (tick s)) .decodeFailure) := by
  obtain ⟨f, hf, -⟩ | ⟨-, hpast, -⟩ | ⟨-, -, -, e⟩ | ⟨i, -, -, hi, -⟩ := cycle_cases run s
  · simp [hrun] at hf
  · omega
  · exact e
  · simp [hd] at hi

/-- R90 steps 3 and 4: a word that decodes to an instruction. -/
theorem cycle_of_fetches {i : Instr} (h : Fetches s i) : cycle run s = run i (advance (tick s)) := by
  obtain ⟨hrun, hpc, hd⟩ := h
  obtain ⟨f, hf, -⟩ | ⟨-, hpast, -⟩ | ⟨-, -, hinvalid, -⟩ | ⟨j, -, -, hj, e⟩ := cycle_cases run s
  · simp [hrun] at hf
  · omega
  · simp [hd] at hinvalid
  · rw [hd] at hj
    cases hj
    exact e

end

/-- Settles O33: two bytes that decode are a fetched instruction, and the state it starts in is the ticked and advanced one. -/
theorem stepRunsTheDecodedInstruction : Obligations.StepRunsTheDecodedInstruction := by
  unfold Obligations.StepRunsTheDecodedInstruction
  intro s i hrun hpc hbytes
  have hf : Fetches s i := ⟨hrun, hpc, decodeWord_of_decodeBytes hbytes⟩
  exact ⟨cycle_of_fetches exec hf, fun P b => cycle_of_fetches (execWith P b) hf⟩

/-- Settles O35: the fetch fault is taken after the tick and before the advance. -/
theorem fetchPastEndHalts : Obligations.FetchPastEndHalts := by
  unfold Obligations.FetchPastEndHalts
  intro s hrun hpc
  exact ⟨_, cycle_of_past exec hrun hpc, rfl, ticked_of_timers rfl rfl, raiseAtFetch_tick_onlyChanges s⟩

/-! ## Every cycle has a next state (log entry 1) -/

theorem exec_next (i : Instr) (s : State) : ∃ t, exec i s = .next t := by
  cases hf : instrFault Config.params i s with
  | some k => exact ⟨_, exec_of_fault hf⟩
  | none =>
    obtain ⟨t, ht, -⟩ := exec_of_noFault hf
    exact ⟨t, ht⟩

theorem cycle_next {run : Instr → State → Host.Outcome State Fault Refusal}
    (hrun : ∀ i s, ∃ t, run i s = .next t) (s : State) : ∃ t, cycle run s = .next t := by
  obtain ⟨f, -, e⟩ | ⟨-, -, e⟩ | ⟨-, -, -, e⟩ | ⟨i, -, -, -, e⟩ := cycle_cases run s
  · exact ⟨_, e⟩
  · exact ⟨_, e⟩
  · exact ⟨_, e⟩
  · exact e ▸ hrun i _

theorem blockCycle_next (P : Config.Params) (b : Byte) (e : Elements) : ∃ f, blockCycle P b e = .next f := by
  obtain ⟨t, ht⟩ := cycle_next (execWith_next P b) (e.withDraws 0)
  exact ⟨_, blockCycle_of_cycleWith ht⟩

/-- Settles O36: an instruction raises or goes on, and each answers a next state. -/
theorem everyCycleHasANextState : Obligations.EveryCycleHasANextState := by
  unfold Obligations.EveryCycleHasANextState
  intro s
  exact ⟨cycle_next exec_next s, fun i => exec_next i s,
    fun P b => ⟨blockCycle_next P b s.toElements, fun i => execWith_next P b i s⟩⟩

/-! ## The fault of a cycle (R172) -/

/-- No condition of R172's table reads `pc` or a timer. -/
theorem instrFault_advance_tick (P : Config.Params) (i : Instr) (s : State) :
    instrFault P i (advance (tick s)) = instrFault P i s := by
  cases i <;> rfl

theorem cycleFault_of_past (P : Config.Params) {s : State} (h : 4096 < s.pc.toNat + 2) :
    cycleFault P s = some .boundsViolation :=
  if_pos (by omega)

theorem cycleFault_of_invalid (P : Config.Params) {s : State} (h : s.pc.toNat + 2 ≤ 4096)
    (hd : decodeWord (wordAt s s.pc) = .invalid) : cycleFault P s = some .decodeFailure := by
  rw [cycleFault, if_neg (by omega), hd]

theorem cycleFault_of_instr (P : Config.Params) {s : State} {i : Instr} (h : s.pc.toNat + 2 ≤ 4096)
    (hd : decodeWord (wordAt s s.pc) = .instr i) : cycleFault P s = instrFault P i s := by
  rw [cycleFault, if_neg (by omega), hd]

/-- R172: a dispatch that takes the faults of the table gives a running machine's cycle the listed kind, or none. -/
theorem faultKind_of_cycle {run : Instr → State → Host.Outcome State Fault Refusal} {P : Config.Params}
    (hfault : ∀ {i s k}, instrFault P i s = some k → run i s = .next (raise s k))
    (hnoFault : ∀ {i s}, instrFault P i s = none → ∃ t, run i s = .next t ∧ t.halt = s.halt)
    {s t : State} (hs : s.halt = none) (h : cycle run s = .next t) :
    t.halt.map FaultRecord.kind = cycleFault P s := by
  obtain ⟨f, hf, -⟩ | ⟨-, hpc, e⟩ | ⟨-, hpc, hd, e⟩ | ⟨i, -, hpc, hd, e⟩ := cycle_cases run s
  · simp [hs] at hf
  · cases e.symm.trans h
    exact (cycleFault_of_past P hpc).symm
  · cases e.symm.trans h
    exact (cycleFault_of_invalid P hpc hd).symm
  · rw [cycleFault_of_instr P hpc hd, ← instrFault_advance_tick]
    cases hi : instrFault P i (advance (tick s)) with
    | some k =>
      cases (e.symm.trans h).symm.trans (hfault hi)
      rfl
    | none =>
      obtain ⟨u, hu, hhalt⟩ := hnoFault hi
      cases (e.symm.trans h).symm.trans hu
      rw [hhalt, advance_halt, tick_halt, hs, Option.map_none]

/-- Settles O37: both dispatches take the faults of the table, `exec` at the default parameters. -/
theorem faultsExactlyOnTheListedConditions : Obligations.FaultsExactlyOnTheListedConditions := by
  unfold Obligations.FaultsExactlyOnTheListedConditions
  intro s t hs
  exact ⟨faultKind_of_cycle exec_of_fault exec_of_noFault hs,
    fun P b => faultKind_of_cycle execWith_of_fault execWith_of_noFault hs⟩

/-! ## The timers (R34, R91) -/

theorem eq_ldDtVx_of_mem_writes {i : Instr} (h : .dt ∈ writes i) : ∃ x, i = .ldDtVx x := by
  cases i <;> simp [writes] at h ⊢

theorem eq_ldStVx_of_mem_writes {i : Instr} (h : .st ∈ writes i) : ∃ x, i = .ldStVx x := by
  cases i <;> simp [writes] at h ⊢

/-- R91: a cycle of a running machine ends with its tick, or with what the fetched instruction left in the ticked timers. -/
theorem step_timers {s t : State} (hs : s.halt = none) (h : step s = .next t) :
    (t.dt = tickByte s.dt ∧ t.st = tickByte s.st) ∨
    ∃ i, Fetches s i ∧ exec i (advance (tick s)) = .next t := by
  obtain ⟨f, hf, -⟩ | ⟨-, -, e⟩ | ⟨-, -, -, e⟩ | ⟨i, -, hpc, hd, e⟩ := step_cases s
  · simp [hs] at hf
  · cases e.symm.trans h
    exact .inl ⟨rfl, rfl⟩
  · cases e.symm.trans h
    exact .inl ⟨rfl, rfl⟩
  · exact .inr ⟨i, ⟨hs, hpc, hd⟩, e.symm.trans h⟩

/-- Settles O42: an instruction that writes no timer leaves the ticked ones, and each timer has one instruction that writes
it. -/
theorem timersTickInEveryRunningCycle : Obligations.TimersTickInEveryRunningCycle := by
  unfold Obligations.TimersTickInEveryRunningCycle
  intro s t hs h
  rw [← tickByte_toNat, ← tickByte_toNat]
  obtain ⟨hdt, hst⟩ | ⟨i, hf, hi⟩ := step_timers hs h
  · exact ⟨fun _ => by rw [hdt], fun _ => by rw [hst]⟩
  · constructor
    · intro hno
      have hdt : .dt ∉ writes i := fun hw => by
        obtain ⟨x, rfl⟩ := eq_ldDtVx_of_mem_writes hw
        exact hno x hf
      exact congrArg BitVec.toNat (exec_frame hi .dt hdt)
    · intro hno
      have hst : .st ∉ writes i := fun hw => by
        obtain ⟨x, rfl⟩ := eq_ldStVx_of_mem_writes hw
        exact hno x hf
      exact congrArg BitVec.toNat (exec_frame hi .st hst)

theorem tick_onlyChanges (s : State) : OnlyChanges [.dt, .st] s (tick s) := by
  apply onlyChanges_of <;> simp

/-- Settles O43: by induction on the number of ticks. -/
theorem ticksCountDownToZero : Obligations.TicksCountDownToZero := by
  unfold Obligations.TicksCountDownToZero
  intro n s
  induction n with
  | zero => exact ⟨rfl, rfl, onlyChanges_refl _ s⟩
  | succ n ih =>
    obtain ⟨hdt, hst, hframe⟩ := ih
    rw [Function.iterate_succ_apply']
    refine ⟨?_, ?_, onlyChanges_trans hframe (tick_onlyChanges _)⟩
    · rw [tick_dt, tickByte_toNat, hdt, Nat.sub_sub]
    · rw [tick_st, tickByte_toNat, hst, Nat.sub_sub]

end Sys2Proof.Machine
end

section
/-! What a program computes does not depend on `dirty` or `ST` (10_state.md R30, R35). Two runs of a dispatch from states that
differ in these two alone answer states that differ in these two alone: no instruction reads them, but for DRW, which only
carries `dirty` along, and CLS and LD ST, Vx, which only write them. -/
namespace Sys2Proof.Machine

/-- The state with another `dirty` and another `ST`. -/
def hide (d : Bool) (z : Byte) (s : State) : State := { s with dirty := d, st := z }

/-- R30, R35: the dispatch `run` answers as before when `dirty` and `ST` are others. -/
def BlindToDirtyAndSt (run : Instr → State → Host.Outcome State Fault Refusal) : Prop :=
  ∀ (i : Instr) (s t : State) (d : Bool) (z : Byte), run i s = .next t →
    ∃ t', run i (hide d z s) = .next t' ∧ SameButDirtyAndSt t t'

theorem sameButDirtyAndSt_hide (d : Bool) (z : Byte) (s : State) : SameButDirtyAndSt s (hide d z s) := by
  constructor <;> rfl

section
variable (d : Bool) (z : Byte) (s : State)

/-! ## Operations that neither read nor write the two -/

theorem skipIf_hide (p : Bool) : skipIf p (hide d z s) = hide d z (skipIf p s) := by
  cases p <;> rfl

theorem setRegs_hide (bs : List Byte) : ∀ (s : State) (j : Nat),
    setRegs (hide d z s) j bs = hide d z (setRegs s j bs) := by
  induction bs with
  | nil => intro s j; rfl
  | cons b bs ih => intro s j; exact ih (s.setReg (BitVec.ofNat 4 j) b) (j + 1)

theorem storeAtI_hide (bs : List Byte) : storeAtI bs (hide d z s) = hide d z (storeAtI bs s) := by
  obtain ⟨hb, e⟩ | ⟨hb, e⟩ := storeAtI_cases bs s
  · rw [e, storeAtI_fits (s := hide d z s) hb]
    rfl
  · rw [e, storeAtI_faults (s := hide d z s) hb]
    rfl

theorem callWithin_hide (capacity : Option Nat) (nnn : Addr12) :
    callWithin capacity nnn (hide d z s) = hide d z (callWithin capacity nnn s) := by
  by_cases hfull : capacity = some s.stack.length
  · obtain ⟨hroom, -⟩ | ⟨-, e⟩ := callWithin_cases capacity nnn s
    · exact absurd hfull hroom
    obtain ⟨hroom, -⟩ | ⟨-, e'⟩ := callWithin_cases capacity nnn (hide d z s)
    · exact absurd hfull hroom
    rw [e, e']
    rfl
  · rw [callWithin_of_room hfull, callWithin_of_room (s := hide d z s) hfull]
    rfl

/-- R145: the key mask alone decides what LD Vx, K does. -/
theorem execLdVxK_hide {x : Nibble} {t : State} (h : execLdVxK x s = .next t) :
    execLdVxK x (hide d z s) = .next (hide d z t) := by
  have hkeys : anyPressed (hide d z s) = anyPressed s := rfl
  rw [execLdVxK, hkeys]
  rw [execLdVxK] at h
  cases hk : anyPressed s with
  | none => rw [hk] at h; cases h; rfl
  | some k => rw [hk] at h; cases h; rfl

/-! ## DRW -/

theorem drwCanvas_hide_disp (x y n : Nibble) : (drwCanvas x y n (hide d z s)).disp = (drwCanvas x y n s).disp :=
  display_ext fun r c =>
    ((toggles_drwCanvas x y n (hide d z s)).pixel r c).trans ((toggles_drwCanvas x y n s).pixel r c).symm

theorem drwCanvas_hide_collision (x y n : Nibble) :
    (drwCanvas x y n (hide d z s)).collision = (drwCanvas x y n s).collision :=
  Bool.eq_iff_iff.2 ((drwCanvas_collision_iff x y n (hide d z s)).trans (drwCanvas_collision_iff x y n s).symm)

/-- R132: the picture and the flag of a DRW do not depend on the two. -/
theorem drawn_hide (x y n : Nibble) : SameButDirtyAndSt (drawn x y n s) (drawn x y n (hide d z s)) := by
  rw [drawn, drawn, drwCanvas_hide_disp, drwCanvas_hide_collision]
  constructor <;> rfl

end

/-! ## The two dispatches -/

/-- No condition of R172's table reads the two. -/
theorem instrFault_hide (P : Config.Params) (i : Instr) (d : Bool) (z : Byte) (s : State) :
    instrFault P i (hide d z s) = instrFault P i s := by
  cases i <;> rfl

theorem exec_blind : BlindToDirtyAndSt exec := by
  intro i s t d z h
  cases hf : instrFault Config.params i s with
  | some k =>
    cases (exec_of_fault hf).symm.trans h
    exact ⟨_, exec_of_fault ((instrFault_hide _ i d z s).trans hf), sameButDirtyAndSt_hide d z _⟩
  | none =>
    cases i with
    | ret =>
      cases hs : s.stack with
      | nil => simp [instrFault, hs] at hf
      | cons w ws =>
        cases (exec_ret_of_cons hs).symm.trans h
        exact ⟨_, exec_ret_of_cons (s := hide d z s) hs, sameButDirtyAndSt_hide d z _⟩
    | call nnn => cases h; exact ⟨_, rfl, callWithin_hide d z s _ nnn ▸ sameButDirtyAndSt_hide d z _⟩
    | drw x y n =>
      have hb : s.i.toNat + n.toNat ≤ 4096 := by simpa [instrFault] using hf
      cases (exec_drw_fits hb).symm.trans h
      exact ⟨_, exec_drw_fits (s := hide d z s) hb, drawn_hide d z s x y n⟩
    | ldB x | storeRegs x => cases h; exact ⟨_, rfl, storeAtI_hide d z s _ ▸ sameButDirtyAndSt_hide d z _⟩
    | loadRegs x =>
      have hb : s.i.toNat + x.toNat + 1 ≤ 4096 := by simpa [instrFault] using hf
      cases (exec_loadRegs_fits hb).symm.trans h
      exact ⟨_, exec_loadRegs_fits (s := hide d z s) hb, setRegs_hide d z _ s 0 ▸ sameButDirtyAndSt_hide d z _⟩
    | ldVxK x => exact ⟨_, execLdVxK_hide d z s h, sameButDirtyAndSt_hide d z t⟩
    | seImm x nn | sneImm x nn | seReg x y | sneReg x y | skp x | sknp x =>
      cases h; exact ⟨_, rfl, skipIf_hide d z s _ ▸ sameButDirtyAndSt_hide d z _⟩
    | cls | ldStVx x => cases h; exact ⟨_, rfl, by constructor <;> rfl⟩
    | _ => cases h; exact ⟨_, rfl, sameButDirtyAndSt_hide d z _⟩

theorem execWith_blind (P : Config.Params) (b : Byte) : BlindToDirtyAndSt (execWith P b) := by
  intro i s t d z h
  obtain ⟨nnn, rfl, e⟩ | ⟨x, rfl, e⟩ | ⟨x, nn, rfl, e⟩ | e := execWith_cases P b i s
  · cases e.symm.trans h
    exact ⟨_, rfl, callWithin_hide d z s _ nnn ▸ sameButDirtyAndSt_hide d z _⟩
  · cases e.symm.trans h
    exact ⟨_, rfl, sameButDirtyAndSt_hide d z _⟩
  · cases e.symm.trans h
    exact ⟨_, rfl, sameButDirtyAndSt_hide d z _⟩
  · obtain ⟨hs, -⟩ := e s
    obtain ⟨hs', -⟩ := e (hide d z s)
    rw [hs']
    exact exec_blind i s t d z (hs.symm.trans h)

/-! ## The cycle -/

/-- R90: what comes before the dispatch reads neither, and the tick of the one is the one of the other but for `ST`. -/
theorem cycle_blind {run : Instr → State → Host.Outcome State Fault Refusal} (hrun : BlindToDirtyAndSt run)
    (d : Bool) (z : Byte) {s t : State} (h : cycle run s = .next t) :
    ∃ t', cycle run (hide d z s) = .next t' ∧ SameButDirtyAndSt t t' := by
  obtain ⟨f, hf, e⟩ | ⟨hs, hpc, e⟩ | ⟨hs, hpc, hd, e⟩ | ⟨i, hs, hpc, hd, e⟩ := cycle_cases run s
  · cases e.symm.trans h
    exact ⟨_, cycle_of_halted run (s := hide d z s) hf, sameButDirtyAndSt_hide d z _⟩
  · cases e.symm.trans h
    have hpc' : 4095 ≤ s.pc.toNat := by omega
    exact ⟨_, cycle_of_past run (s := hide d z s) hs hpc', sameButDirtyAndSt_hide d (tickByte z) _⟩
  · cases e.symm.trans h
    exact ⟨_, cycle_of_invalid run (s := hide d z s) hs hpc hd, sameButDirtyAndSt_hide d (tickByte z) _⟩
  · rw [cycle_of_fetches run (s := hide d z s) ⟨hs, hpc, hd⟩]
    exact hrun i _ t d (tickByte z) (e.symm.trans h)

/-- Settles O44: both dispatches are blind to `dirty` and `ST`, and so is the cycle of any dispatch that is. -/
theorem dirtyAndSoundTimerAreUnobservable : Obligations.DirtyAndSoundTimerAreUnobservable := by
  unfold Obligations.DirtyAndSoundTimerAreUnobservable
  intro s t d z
  exact ⟨cycle_blind exec_blind d z, fun P b => cycle_blind (execWith_blind P b) d z⟩

end Sys2Proof.Machine
end

section
/-! The invariant (10_state.md R25, R26, 60_exceptions.md R174). An instruction keeps memory canonical, moves the stack by at
most one entry and leaves `pc` within R25's bound; with the faults, which leave all of these alone, that makes a step lemma,
and an induction over events carries it to every reachable block. -/
namespace Sys2Proof.Machine

/-! ## What an instruction does to memory, to the stack and to `pc` -/

section
variable {P : Config.Params} {b : Byte} {i : Instr} {s t : State}

/-- Log entry 4: every instruction keeps memory in canonical form; only LD B and LD [I] write any. -/
theorem exec_mem_wf (h : exec i s = .next t) (hw : s.mem.wf = true) : t.mem.wf = true := by
  cases i with
  | ldB x | storeRegs x => cases h; exact storeAtI_wf hw _
  | call nnn => cases h; obtain ⟨-, e⟩ | ⟨-, e⟩ := callWithin_cases Config.stackDepth nnn s <;> rw [e] <;> exact hw
  | ret => obtain ⟨w, ws, -, e⟩ | ⟨-, e⟩ := execRet_cases s <;> cases e.symm.trans h <;> exact hw
  | drw x y n => obtain ⟨-, e⟩ | ⟨-, e⟩ := execDrw_cases x y n s <;> cases e.symm.trans h <;> exact hw
  | loadRegs x =>
    obtain ⟨-, e⟩ | ⟨-, e⟩ := execLoadRegs_cases x s <;> cases e.symm.trans h
    · rw [setRegs_frame]
      exact hw
    · exact hw
  | ldVxK x => obtain ⟨-, e⟩ | ⟨-, b, e⟩ := execLdVxK_cases x s <;> cases e.symm.trans h <;> exact hw
  | seImm x nn | sneImm x nn | seReg x y | sneReg x y | skp x | sknp x => cases h; rw [skipIf_eq]; exact hw
  | _ => cases h; exact hw

/-- The same for every parameter: CALL, LD F and RND write no memory. -/
theorem execWith_mem_wf (h : execWith P b i s = .next t) (hw : s.mem.wf = true) : t.mem.wf = true := by
  obtain ⟨nnn, rfl, e⟩ | ⟨x, rfl, e⟩ | ⟨x, nn, rfl, e⟩ | e := execWith_cases P b i s
  · cases e.symm.trans h
    obtain ⟨-, e'⟩ | ⟨-, e'⟩ := callWithin_cases P.stackDepth nnn s <;> rw [e'] <;> exact hw
  · cases e.symm.trans h
    exact hw
  · cases e.symm.trans h
    exact hw
  · obtain ⟨hs, -⟩ := e s
    exact exec_mem_wf (hs.symm.trans h) hw

/-- R26: a return takes the newest entry off the stack, a call that the stack has room for puts `pc` on it, and nothing else
moves it. -/
theorem execWith_stack (h : execWith P b i s = .next t) :
    t.stack = s.stack ∨ t.stack = s.stack.tail ∨
      (P.stackDepth ≠ some s.stack.length ∧ t.stack = s.pc :: s.stack) := by
  by_cases hw : .stack ∈ writes i
  · cases i with
    | call nnn =>
      cases h
      obtain ⟨hroom, e⟩ | ⟨-, e⟩ := callWithin_cases P.stackDepth nnn s <;> rw [e]
      · exact .inr (.inr ⟨hroom, rfl⟩)
      · exact .inl rfl
    | ret =>
      obtain ⟨w, ws, hs, e⟩ | ⟨-, e⟩ := execRet_cases s <;> cases e.symm.trans h
      · exact .inr (.inl (by rw [hs]; rfl))
      · exact .inl rfl
    | _ => simp [writes] at hw
  · exact .inl (execWith_frame h .stack hw)

/-- R25: where an instruction leaves `pc` for any STACK_DEPTH. -/
theorem execWith_pc (h : execWith P b i s = .next t) :
    t.pc = pcAfter i s ∨ t.pc = s.pc ∨ ∃ nnn : Addr12, t.pc = BitVec.ofNat 16 nnn.toNat := by
  obtain ⟨nnn, rfl, e⟩ | ⟨x, rfl, e⟩ | ⟨x, nn, rfl, e⟩ | e := execWith_cases P b i s
  · cases e.symm.trans h
    rw [callWithin_pc]
    split_ifs
    · exact .inr (.inl rfl)
    · exact .inr (.inr ⟨nnn, rfl⟩)
  · cases e.symm.trans h
    exact .inl rfl
  · cases e.symm.trans h
    exact .inl rfl
  · obtain ⟨hs, -⟩ := e s
    exact .inl (exec_pc (hs.symm.trans h))

end

/-! ## The bound of `pc` (R25) -/

theorem ofNat_toNat_le (nnn : Addr12) : (BitVec.ofNat 16 nnn.toNat).toNat ≤ 0x10FE := by
  have hn := nnn.isLt
  rw [BitVec.toNat_ofNat]
  omega

/-- R25: entered with `pc` at most 4096 and no return address above it, an instruction leaves `pc` at most at the largest
target of JP V0. -/
theorem pcAfter_le (i : Instr) {s : State} (hge : 2 ≤ s.pc.toNat) (hle : s.pc.toNat ≤ 4096)
    (hstack : ∀ r ∈ s.stack, r.toNat ≤ 4096) : (pcAfter i s).toNat ≤ 0x10FE := by
  have hskip : (s.pc + 2).toNat ≤ 0x10FE := by bv_omega
  have hwait : (s.pc - 2).toNat ≤ 0x10FE := by bv_omega
  have hkeep : s.pc.toNat ≤ 0x10FE := by omega
  cases i with
  | jp nnn => exact ofNat_toNat_le nnn
  | jpV0 nnn =>
    have hn := nnn.isLt
    have hb := (s.reg 0).isLt
    rw [pcAfter, BitVec.toNat_ofNat]
    omega
  | call nnn =>
    rw [pcAfter]
    split_ifs
    · exact hkeep
    · exact ofNat_toNat_le nnn
  | ret =>
    rw [pcAfter]
    cases hs : s.stack with
    | nil => exact hkeep
    | cons w ws => exact Nat.le_trans (hstack w (by simp [hs])) (by decide)
  | seImm x nn | seReg x y | skp x | sneImm x nn | sneReg x y | sknp x | ldVxK x =>
    rw [pcAfter]
    split_ifs <;> assumption
  | _ => exact hkeep

/-! ## The step lemma -/

section
variable {P : Config.Params} {s : State}

/-- R90: what an instruction finds in `pc` when its word was fetched at an address within memory. -/
theorem advance_tick_pc_toNat (hpc : s.pc.toNat + 2 ≤ 4096) : (advance (tick s)).pc.toNat = s.pc.toNat + 2 := by
  rw [advance_pc, tick_pc]
  bv_omega

/-- R174: the fetch fault leaves `pc` past the last fetchable address. -/
theorem inv_raiseAtFetch (hi : Inv P s.toElements) (hpc : 4096 < s.pc.toNat + 2) :
    Inv P (raiseAtFetch (tick s)).toElements where
  mem_wf := hi.mem_wf
  pc_le := hi.pc_le
  stack_le := hi.stack_le
  depth_le := hi.depth_le
  halt_ok f hf := by
    obtain rfl : ⟨.boundsViolation, s.pc, 0⟩ = f := Option.some.inj hf
    exact .inl ⟨rfl, rfl, rfl, by show 4095 ≤ s.pc.toNat; omega⟩

/-- R174: a fault in step 4 leaves `pc` just after the faulting address. -/
theorem inv_raise (hi : Inv P s.toElements) (hpc : s.pc.toNat + 2 ≤ 4096) (k : Fault) :
    Inv P (raise (advance (tick s)) k).toElements where
  mem_wf := hi.mem_wf
  pc_le := by rw [raise_pc, advance_tick_pc_toNat hpc]; omega
  stack_le := hi.stack_le
  depth_le := hi.depth_le
  halt_ok f hf := by
    rw [raise_advance_tick_halt] at hf
    obtain rfl := Option.some.inj hf
    exact .inr ⟨by show s.pc.toNat ≤ 4094; omega, rfl⟩

/-- R25, R26: an instruction that raises no fault keeps the bounds. -/
theorem inv_execWith {b : Byte} {i : Instr} {t : State} (hi : Inv P s.toElements) (hpc : s.pc.toNat + 2 ≤ 4096)
    (h : execWith P b i (advance (tick s)) = .next t) (hhalt : t.halt = none) : Inv P t.toElements where
  mem_wf := execWith_mem_wf h hi.mem_wf
  pc_le := by
    have hat := advance_tick_pc_toNat hpc
    obtain e | e | ⟨nnn, e⟩ := execWith_pc h <;> rw [e]
    · exact pcAfter_le i (by omega) (by omega) hi.stack_le
    · omega
    · exact ofNat_toNat_le nnn
  stack_le r hr := by
    obtain e | e | ⟨-, e⟩ := execWith_stack h <;> rw [e] at hr
    · exact hi.stack_le r hr
    · exact hi.stack_le r (List.mem_of_mem_tail hr)
    · obtain rfl | hr := List.mem_cons.1 hr
      · rw [advance_tick_pc_toNat hpc]
        exact hpc
      · exact hi.stack_le r hr
  depth_le d hd := by
    have hlen : s.stack.length ≤ d := hi.depth_le d hd
    obtain e | e | ⟨hroom, e⟩ := execWith_stack h <;> rw [e]
    · exact hlen
    · rw [List.length_tail]
      exact Nat.le_trans (Nat.sub_le _ 1) hlen
    · rw [hd] at hroom
      have hne : d ≠ s.stack.length := fun hde => hroom (congrArg some hde)
      show s.stack.length + 1 ≤ d
      omega
  halt_ok f hf := by simp [hhalt] at hf

/-- R25, R174: every cycle keeps the invariant. -/
theorem inv_cycleWith {b : Byte} {t : State} (hi : Inv P s.toElements) (h : cycleWith P b s = .next t) :
    Inv P t.toElements := by
  obtain ⟨f, -, e⟩ | ⟨-, hpc, e⟩ | ⟨-, hpc, -, e⟩ | ⟨i, hs, hpc, -, e⟩ := cycleWith_cases P b s
  · cases e.symm.trans h
    exact hi
  · cases e.symm.trans h
    exact inv_raiseAtFetch hi hpc
  · cases e.symm.trans h
    exact inv_raise hi hpc _
  · cases hf : instrFault P i (advance (tick s)) with
    | some k =>
      cases (e.symm.trans h).symm.trans (execWith_of_fault hf)
      exact inv_raise hi hpc k
    | none =>
      obtain ⟨u, hu, hhalt⟩ := execWith_of_noFault (answer := b) hf
      cases (e.symm.trans h).symm.trans hu
      exact inv_execWith hi hpc hu (hhalt.trans hs)

end

theorem inv_blockCycle {P : Config.Params} {b : Byte} {e f : Elements} (hi : Inv P e) (h : blockCycle P b e = .next f) :
    Inv P f := by
  obtain ⟨t, ht, rfl⟩ := cycleWith_of_blockCycle h
  exact inv_cycleWith hi ht

/-- Settles O49: the cycle's step lemma, and the step leaves the elements that a cycle leaves. -/
theorem stepKeepsTheInvariant : Obligations.StepKeepsTheInvariant := by
  unfold Obligations.StepKeepsTheInvariant
  constructor
  · intro s t hi h
    obtain ⟨u, hu, he⟩ := step_elements h
    exact he ▸ inv_cycleWith hi hu
  · intro P b e f hi h
    exact inv_blockCycle hi h

/-! ## Reset and the host's events -/

/-- R40: the elements after Reset, of which the parameters decide memory alone. -/
theorem inv_resetElements {P : Config.Params} (hP : paramsOk P = true) : Inv P (resetElements P) where
  mem_wf := resetMemory_wf hP
  pc_le := (by decide : State.reset.pc.toNat ≤ 0x10FE)
  stack_le := nofun
  depth_le _ _ := Nat.zero_le _
  halt_ok := nofun

/-- Settles O50: at the default parameters the elements after Reset are those of `State.reset`. -/
theorem resetHasTheInvariant : Obligations.ResetHasTheInvariant := by
  unfold Obligations.ResetHasTheInvariant
  refine ⟨?_, fun P hP => inv_resetElements hP⟩
  rw [← resetElements_params]
  exact inv_resetElements (by decide)

/-- R202: Load writes memory alone. -/
theorem inv_loadEvent {P : Config.Params} {img : List Byte} {e : Elements} (hP : paramsOk P = true)
    (himg : imageOk img = true) (hi : Inv P e) : Inv P (loadEvent P img e) where
  mem_wf := loadEvent_wf hP hi.mem_wf himg
  pc_le := hi.pc_le
  stack_le := hi.stack_le
  depth_le := hi.depth_le
  halt_ok := hi.halt_ok

/-- The invariant says nothing of KEYS and `dirty`. -/
theorem inv_keys_dirty {P : Config.Params} {e : Elements} (hi : Inv P e) (k : BitVec 16) (d : Bool) :
    Inv P { e with keys := k, dirty := d } where
  mem_wf := hi.mem_wf
  pc_le := hi.pc_le
  stack_le := hi.stack_le
  depth_le := hi.depth_le
  halt_ok := hi.halt_ok

/-- Before the first Reset a block has no elements; after it they have the invariant. -/
def BlockInv (P : Config.Params) (b : Block) : Prop := ∀ p e, b = .live p e → Inv P e

theorem blockInv_live {P : Config.Params} {p : Phase} {e : Elements} (hi : Inv P e) : BlockInv P (.live p e) := by
  rintro _ _ ⟨⟩
  exact hi

/-- R180: every event the block accepts keeps the invariant. -/
theorem blockInv_respond {P : Config.Params} {a : Byte} {ev : Event} {b b' : Block} {r : Response}
    (hP : paramsOk P = true) (hb : BlockInv P b) (h : respond P a ev b = .next (b', r)) : BlockInv P b' := by
  cases b with
  | unreset =>
    obtain ⟨-, rfl⟩ := respond_unreset h
    exact blockInv_live (inv_resetElements hP)
  | live p e =>
    have hi : Inv P e := hb p e rfl
    cases ev with
    | reset =>
      rw [respond_reset] at h
      cases h
      exact blockInv_live (inv_resetElements hP)
    | load img =>
      obtain ⟨-, himg, rfl⟩ := respond_load h
      exact blockInv_live (inv_loadEvent hP himg hi)
    | cycle =>
      obtain ⟨f, hf, rfl⟩ := respond_cycle h
      exact blockInv_live (inv_blockCycle hi hf)
    | keyPress _ | keyRelease _ | displayRead | dirtyQuery | timerSample | faultReport =>
      obtain ⟨k, d, rfl⟩ := respond_quiet (by simp) (by simp) (by simp) h
      exact blockInv_live (inv_keys_dirty hi k d)

/-- Settles O51: by induction over the accepted events. -/
theorem reachableStatesHaveTheInvariant : Obligations.ReachableStatesHaveTheInvariant := by
  unfold Obligations.ReachableStatesHaveTheInvariant
  intro P p e hP hreach
  have hinv : ∀ b, Reachable P b → BlockInv P b := by
    intro b hb
    induction hb with
    | start => exact nofun
    | event a ev b b' r _ hr ih => exact blockInv_respond hP ih hr
  exact hinv _ hreach p e rfl

end Sys2Proof.Machine
end

section
/-! The host's events as a whole (60_exceptions.md R175, R190, 70_reset_and_hazards.md R200, R203): what is refused, what an
event other than Reset does to a halted block, and the Cycle event against the step. -/
namespace Sys2Proof.Machine

/-! ## The step and the block's cycle (log entries 3, 5, 6) -/

/-- The block's cycle reads no count of draws, so the elements of a state have the cycle of the state. -/
theorem blockCycle_toElements {P : Config.Params} {b : Byte} {s t : State} (h : cycleWith P b s = .next t) :
    blockCycle P b s.toElements = .next t.toElements :=
  blockCycle_of_cycleWith (t := t.setDraws 0) (cycleWith_setDraws 0 h)

theorem blockCycle_of_step {s t : State} (h : step s = .next t) :
    blockCycle Config.params (Config.drawByte s.draws) s.toElements = .next t.toElements := by
  obtain ⟨u, hu, he⟩ := step_elements h
  rw [← he, blockCycle_toElements hu]

/-- Settles O60: a step leaves the elements that the cycle at the default parameters leaves, and three instructions depend on
what `execWith` is given besides. -/
theorem stepIsTheBlockCycle : Obligations.StepIsTheBlockCycle := by
  unfold Obligations.StepIsTheBlockCycle
  constructor
  · intro s
    obtain ⟨t, ht⟩ := cycle_next exec_next s
    exact ⟨t, ht, blockCycle_of_step ht⟩
  · intro P b i s hcall hldF hrnd
    exact execWith_eq_exec P b s hcall hldF hrnd

/-! ## What is refused (R190, R200, R203) -/

section
variable (P : Config.Params) (a : Byte) (p : Phase) (e : Elements)

/-- R203 (a). -/
theorem respond_load_of_not_fresh (img : List Byte) (hp : p ≠ .fresh) :
    respond P a (.load img) (.live p e) = .refused .loadOutsideWindow := by
  cases p with
  | fresh => exact absurd rfl hp
  | loaded | running => rfl

/-- R203 (b). -/
theorem respond_load_of_too_long {img : List Byte} (himg : 3584 < img.length) :
    respond P a (.load img) (.live .fresh e) = .refused .imageTooLong :=
  if_neg fun hok => Nat.not_lt.2 ((imageOk_iff img).1 hok) himg

theorem respondKey_of_ge (f : Nat → Elements → Elements) {k : Nat} (hk : 16 ≤ k) :
    respondKey f k p e = .refused .keyIndexOutOfRange :=
  if_neg fun hok => Nat.not_lt.2 hk ((keyIndexOk_iff k).1 hok)

/-- R200. -/
theorem respond_unreset_of_ne_reset {ev : Event} (hev : ev ≠ .reset) :
    respond P a ev .unreset = .refused .notReset := by
  cases ev with
  | reset => exact absurd rfl hev
  | _ => rfl

/-- R90, R203 (a): a Cycle is accepted in every phase, and ends the window for Load. -/
theorem respond_cycle_of_blockCycle {f : Elements} (h : blockCycle P a e = .next f) :
    respond P a .cycle (.live p e) = .next (.live .running f, .done) := by
  simp only [respond, respondLive, respondCycle, h]

end

/-- Settles O54: each refusal is one test of `respond`, and the Cycle event answers the block's cycle, which is the step's
where the byte is the free value. -/
theorem hostMisuseIsRefused : Obligations.HostMisuseIsRefused := by
  unfold Obligations.HostMisuseIsRefused
  intro P a img k p e ev
  refine ⟨respond_load_of_not_fresh P a p e img, respond_load_of_too_long P a e,
    fun hk => ⟨respondKey_of_ge p e keyPressEvent hk, respondKey_of_ge p e keyReleaseEvent hk⟩,
    respond_unreset_of_ne_reset P a, fun f => respond_cycle_of_blockCycle P a p e, ?_⟩
  rintro s t rfl h
  exact respond_cycle_of_blockCycle _ _ p _ (blockCycle_of_step h)

/-! ## Events between cycles (R190) -/

theorem keys_dirty_onlyElementsChange (e : Elements) (k : BitVec 16) (d : Bool) :
    OnlyElementsChange [.keys, .dirty] e { e with keys := k, dirty := d } := by
  apply onlyElementsChange_of <;> simp

/-- Settles O58: such an event leaves the block with another KEYS and another `dirty` at most. -/
theorem hostEventsReachOnlyKeysAndDirty : Obligations.HostEventsReachOnlyKeysAndDirty := by
  unfold Obligations.HostEventsReachOnlyKeysAndDirty
  intro P a ev p e b r hreset hcycle hload h
  obtain ⟨k, d, rfl⟩ := respond_quiet hreset hcycle hload h
  exact ⟨_, rfl, keys_dirty_onlyElementsChange e k d⟩

/-! ## A halted block (R175) -/

/-- R175: what an event other than Reset keeps of a block halted with the record `f`. -/
def KeepsHalt (f : FaultRecord) (p : Phase) (e : Elements) (b : Block) : Prop :=
  ∃ q t, b = .live q t ∧ t.halt = some f ∧ OnlyElementsChange [.mem, .keys, .dirty] e t ∧
    (p = .running → q = .running ∧ OnlyElementsChange [.keys, .dirty] e t)

theorem onlyElementsChange_mono {cs ds : List Component} {e t : Elements} (hsub : cs ⊆ ds)
    (h : OnlyElementsChange cs e t) : OnlyElementsChange ds e t :=
  onlyChanges_mono hsub h

/-- A change of KEYS and `dirty` that leaves the phase `running`, or leaves the phase. -/
theorem keepsHalt_of_quiet {f : FaultRecord} {p q : Phase} {e t : Elements} (hq : p = .running → q = .running)
    (ht : t.halt = some f) (h : OnlyElementsChange [.keys, .dirty] e t) : KeepsHalt f p e (.live q t) :=
  ⟨q, t, rfl, ht, onlyElementsChange_mono (by simp) h, fun hp => ⟨hq hp, h⟩⟩

/-- R93, R203, R175: one event; a Load needs the phase `fresh`, and a Cycle does nothing to a halted machine. -/
theorem keepsHalt_respond {P : Config.Params} {a : Byte} {ev : Event} {p : Phase} {e : Elements} {f : FaultRecord}
    {b : Block} {r : Response} (hev : ev ≠ .reset) (hf : e.halt = some f)
    (h : respond P a ev (.live p e) = .next (b, r)) : KeepsHalt f p e b := by
  cases ev with
  | reset => exact absurd rfl hev
  | load img =>
    obtain ⟨rfl, -, rfl⟩ := respond_load h
    exact ⟨_, _, rfl, hf, onlyElementsChange_mono (by simp) (loadEvent_onlyElementsChange P img e), nofun⟩
  | cycle =>
    obtain ⟨t, ht, rfl⟩ := respond_cycle h
    cases (blockCycle_halted hf).symm.trans ht
    exact keepsHalt_of_quiet (fun _ => rfl) hf (onlyElementsChange_refl _ e)
  | keyPress _ | keyRelease _ | displayRead | dirtyQuery | timerSample | faultReport =>
    obtain ⟨k, d, rfl⟩ := respond_quiet (by simp) (by simp) (by simp) h
    exact keepsHalt_of_quiet id hf (keys_dirty_onlyElementsChange e k d)

theorem keepsHalt_trans {f : FaultRecord} {p q : Phase} {e t : Elements} {b : Block}
    (h : KeepsHalt f p e (.live q t)) (h' : KeepsHalt f q t b) : KeepsHalt f p e b := by
  obtain ⟨_, _, ⟨⟩, -, hmem, hrunning⟩ := h
  obtain ⟨q', t', rfl, ht', hmem', hrunning'⟩ := h'
  refine ⟨q', t', rfl, ht', onlyElementsChange_trans hmem hmem', fun hp => ?_⟩
  obtain ⟨hq, hquiet⟩ := hrunning hp
  obtain ⟨hq', hquiet'⟩ := hrunning' hq
  exact ⟨hq', onlyElementsChange_trans hquiet hquiet'⟩

/-- R175: a run of events without a Reset, by induction over the events. -/
theorem keepsHalt_respondAll {P : Config.Params} {f : FaultRecord} {es : List (Event × Byte)} :
    ∀ {p : Phase} {e : Elements} {b : Block} {rs : List Response}, (∀ x ∈ es, x.1 ≠ .reset) → e.halt = some f →
      respondAll P es (.live p e) = .next (b, rs) → KeepsHalt f p e b := by
  induction es with
  | nil =>
    intro p e b rs _ hf h
    cases h
    exact keepsHalt_of_quiet id hf (onlyElementsChange_refl _ e)
  | cons x es ih =>
    intro p e b rs hes hf h
    obtain ⟨hx, hes⟩ := List.forall_mem_cons.1 hes
    obtain ⟨c, r, qs, hc, hrest, -⟩ := respondAll_cons h
    have hfirst := keepsHalt_respond hx hf hc
    obtain ⟨q, t, rfl, ht, -⟩ := keepsHalt_respond hx hf hc
    exact keepsHalt_trans hfirst (ih hes ht hrest)

/-- Settles O59: by induction over the events, each of which keeps the record. -/
theorem onlyResetLeavesTheHaltedState : Obligations.OnlyResetLeavesTheHaltedState := by
  unfold Obligations.OnlyResetLeavesTheHaltedState
  intro P es p e f b rs hes hf h
  exact keepsHalt_respondAll hes hf h

end Sys2Proof.Machine
end

section
/-! Single operations: a run of bytes written to memory and the next fetch (20_memory.md R53, R60), RND (41_register_ops.md
R112), a sprite drawn twice (43_display_ops.md R133), the timer instructions at dispatch, and a return after its call. -/
namespace Sys2Proof.Machine

/-! ## Memory (R53, R60, log entry 4) -/

theorem memWrite_eq_none (s : State) {a : Nat} {bs : List Byte} (h : 4096 < a + bs.length) : memWrite s a bs = none := by
  rw [memWrite_eq, if_neg (Nat.not_le.2 h)]

theorem memWrite_eq_some (s : State) {a : Nat} {bs : List Byte} (h : a + bs.length ≤ 4096) :
    memWrite s a bs = some (s.setMem (s.mem.writeList a bs)) := by
  rw [memWrite_eq, if_pos h]

/-- Settles O46: a range that fits is the run of writes whose bytes, surroundings and form the memory laws give. -/
theorem memWriteChecksAndWritesRange : Obligations.MemWriteChecksAndWritesRange := by
  unfold Obligations.MemWriteChecksAndWritesRange
  intro s a bs
  refine ⟨memWrite_eq_none s, fun hw hb => ⟨_, memWrite_eq_some s hb, fun k hk => ?_, fun c hc => ?_,
    setMem_onlyChanges s _, Memory.wf_writeList bs hw hb⟩⟩
  · exact (read_writeList_of_lt hw hb hk).symm
  · exact read_writeList_outside hw hb hc

/-- Settles O47: the write fits, so the fetch does, and each of its two bytes is one of the run. -/
theorem storeIsSeenByTheNextFetch : Obligations.StoreIsSeenByTheNextFetch := by
  unfold Obligations.StoreIsSeenByTheNextFetch
  intro s t a hi lo hw h
  rw [memWrite_eq] at h
  split_ifs at h with hb
  cases h
  have hhi : (s.mem.writeList a.toNat [hi, lo]).read a.toNat = hi :=
    Option.some.inj (read_writeList_of_lt hw hb (k := 0) (by simp))
  have hlo : (s.mem.writeList a.toNat [hi, lo]).read (a.toNat + 1) = lo :=
    Option.some.inj (read_writeList_of_lt hw hb (k := 1) (by simp))
  have hfetch : a.toNat + 2 ≤ 4096 := hb
  rw [fetchWord_eq, if_pos hfetch, wordAt, State.setMem_mem, hhi, hlo]

/-- Settles O48: in canonical form the byte read decides the entry, and equal entries are equal data. -/
theorem equalContentsAreEqualMemories : Obligations.EqualContentsAreEqualMemories := by
  unfold Obligations.EqualContentsAreEqualMemories
  intro m m' hw hw' hread
  refine Memory.eq_of_lookup_eq hw hw' fun a => ?_
  rw [Memory.lookup_eq hw, Memory.lookup_eq hw', hread a]

/-! ## RND (R112) -/

theorem rndFrom_reg (answer : Byte) (x : Nibble) (nn : Byte) (s : State) :
    (rndFrom answer x nn s).reg x = answer &&& nn :=
  reg_setReg_same s x _

/-- Settles O8: under `execWith` the byte is given; under `exec` it is the free value, and the count goes up beside the one
register write. -/
theorem rndMasksTheDrawnByte : Obligations.RndMasksTheDrawnByte := by
  unfold Obligations.RndMasksTheDrawnByte
  intro x nn s
  have hd : decodeWord (formXNN 0xC#4 x nn) = .instr (.rnd x nn) := by simp [decodeWord]
  refine ⟨hd, fun P b => ⟨rndFrom b x nn s, rfl, rndFrom_reg b x nn s, fun k hk => ?_,
      setReg_onlyRegsChange s _ (by simp)⟩,
    _, rfl, rndFrom_reg _ x nn _, rfl, fun k hk => reg_setReg_ne _ x k _ hk, rndFrom_drawByte_onlyChanges x nn s⟩
  rw [rndFrom_reg, BitVec.getLsbD_and, hk, Bool.and_false]

/-! ## A sprite drawn twice (R133) -/

section
variable {x y n : Nibble} {s s' : State}

/-- R130: a sprite's position and bits are decided by `V[x]`, `V[y]`, `I` and the bytes read. -/
theorem spriteSetAt_congr (hx : s'.reg x = s.reg x) (hy : s'.reg y = s.reg y) (hI : s'.i = s.i)
    (hbytes : ∀ k < n.toNat, s'.mem.read (s.i.toNat + k) = s.mem.read (s.i.toNat + k)) (row col : Nat) :
    spriteSetAt s' x y n row col = spriteSetAt s x y n row col := by
  rw [spriteSetAt, spriteSetAt, hx, hy, hI]
  by_cases hrow : (s.reg y).toNat ≤ row ∧ row < (s.reg y).toNat + n.toNat
  · rw [hbytes _ (by omega)]
  · have hoff : (decide ((s.reg y).toNat ≤ row) && decide (row < (s.reg y).toNat + n.toNat)) = false := by
      simpa using hrow
    rw [hoff]
    rfl

/-- R133 (a): a second toggle of the same positions takes the first one back. -/
theorem drawn_drawn_disp (hdisp : s'.disp = (drawn x y n s).disp)
    (hset : ∀ row col, spriteSetAt s' x y n row col = spriteSetAt s x y n row col) :
    (drawn x y n s').disp = s.disp := by
  apply display_ext
  intro row col
  by_cases hon : row < 32 ∧ col < 64
  · rw [drawn_pixel x y n s' hon.1 hon.2, hdisp, drawn_pixel x y n s hon.1 hon.2, hset, Bool.xor_assoc, Bool.xor_self,
      Bool.xor_false]
  · rw [pixel_offscreen _ hon, pixel_offscreen _ hon]

/-- R133 (a): a set bit drawn on a blank display is a set pixel under the second drawing. -/
theorem drawn_drawn_vf (hblank : s.disp = Display.blank) (hdisp : s'.disp = (drawn x y n s).disp)
    (hset : ∀ row col, spriteSetAt s' x y n row col = spriteSetAt s x y n row col)
    (hon : ∃ row < 32, ∃ col < 64, spriteSetAt s x y n row col = true) : (drawn x y n s').reg vf = 1 := by
  obtain ⟨row, hr, col, hc, hbit⟩ := hon
  refine drawn_vf_of_collision (row := row) (col := col) ((hset row col).trans hbit) ?_
  rw [hdisp, drawn_pixel x y n s hr hc, hblank, pixel_blank, hbit, Bool.false_xor]

end

/-- Settles O17: the second DRW draws the first one's sprite on the first one's display. -/
theorem drawingTwiceRestoresDisplay : Obligations.DrawingTwiceRestoresDisplay := by
  unfold Obligations.DrawingTwiceRestoresDisplay
  intro x y n s t s' u hb ht hdisp hx hy hI hbytes hu
  have hb' : s'.i.toNat + n.toNat ≤ 4096 := by rwa [hI]
  cases (exec_drw_fits hb).symm.trans ht
  cases (exec_drw_fits hb').symm.trans hu
  have hset := spriteSetAt_congr hx hy hI hbytes
  refine ⟨drawn_drawn_disp hdisp hset, fun hblank hon => ⟨?_, drawn_drawn_vf hblank hdisp hset hon⟩⟩
  exact drawn_vf_of_no_collision fun row _ col _ _ => by rw [hblank, pixel_blank]

/-! ## Timers and calls at dispatch -/

/-- Settles O18: one write each, to the register or to the timer. -/
theorem timerInstructionsMoveTimers : Obligations.TimerInstructionsMoveTimers := by
  unfold Obligations.TimerInstructionsMoveTimers
  intro x s
  exact ⟨⟨s.setReg x s.dt, rfl, reg_setReg_same s x _, setReg_onlyRegsChange s _ (by simp)⟩,
    ⟨s.setDt (s.reg x), rfl, rfl, setDt_onlyChanges s _⟩, ⟨s.setSt (s.reg x), rfl, rfl, setSt_onlyChanges s _⟩⟩

/-- Settles O25: the return pops the entry that the call pushed. -/
theorem retUndoesCall : Obligations.RetUndoesCall := by
  unfold Obligations.RetUndoesCall
  intro nnn s t s' hroom ht hstack
  cases ht
  rw [callWithin_of_room hroom] at hstack
  exact ⟨_, exec_ret_of_cons hstack, rfl, rfl⟩

end Sys2Proof.Machine
end
